-- ==== Sys2Proof/Word.lean ====
section
/-! DEFINITION. The word type of CORE: every register value and every program byte is an unsigned
integer in 0..255 (00_scope.md R13). -/

namespace Sys2Proof

/-- A register value or a program byte (00_scope.md R11, R13). -/
abbrev Byte := BitVec 8

end Sys2Proof
end

