-- ==== Sys2Proof/Config.lean ====
section
/-! DEFINITION. What an implementation of CORE fixes and the spec leaves open: two parameters
(00_scope.md R12). The spec leaves no result of an instruction open, so there is no free value. -/

namespace Sys2Proof.Config

/-- The open parameters of 00_scope.md R12, arguments of the entry point (log 3). Their
constraint is `Params.admissible`; what a run is where it fails is the model's choice (log 25). -/
structure Params where
  /-- `MAX_PROGRAM_LEN`: the largest program length L the engine accepts. -/
  maxProgramLen : Nat
  /-- `PC_BITS`: the width of `program_counter`. -/
  pcBits : Nat
deriving DecidableEq, Repr

end Sys2Proof.Config
end

