-- ==== Sys2Proof/Syntax.lean ====
section
/-! DEFINITION. The instructions of CORE, one constructor for each row of the opcode table
(30_encoding.md R40). The names are the mnemonics of the spec (log 17). -/

namespace Sys2Proof

/-- The four instructions. Every register operand is fixed by the opcode, so the only field is the
8-bit immediate of format OPI (30_encoding.md R42, R43). -/
inductive Instr where
  /-- 0xA9, load immediate into the accumulator (41_load.md R70). -/
  | ldaImm (imm : Byte)
  /-- 0x00, halt (42_halt.md R72). -/
  | brk
  /-- 0xAA, transfer the accumulator to the index register and clear it (43_transfer.md R74). -/
  | tax
  /-- 0xE8, increment the index register (44_increment.md R76). -/
  | inx
deriving DecidableEq, Repr

end Sys2Proof
end

