-- ==== Sys2Proof/WellFormed.lean ====
section
/-! DEFINITION. The checks on what is handed to CORE: an instruction term, the implementation's
parameters, and a program. -/

namespace Sys2Proof

/-- Every instruction term is well formed: the one operand is a whole byte, which its type says
(30_encoding.md R43), and no instruction has a register or mode field (R41). -/
def Instr.wellFormed (i : Instr) : Bool :=
  match i with
  | .ldaImm _ => true
  | .brk => true
  | .tax => true
  | .inx => true

namespace Config

/-- The constraint of 00_scope.md R12: `2^PC_BITS − 1 ≥ MAX_PROGRAM_LEN`. A premise of
claims; the entry point does not check it (log 25). -/
def Params.admissible (p : Params) : Bool :=
  decide (p.maxProgramLen ≤ 2 ^ p.pcBits - 1)

/-- A program is a byte sequence of length `L ≤ MAX_PROGRAM_LEN` (20_memory.md R30, 00_scope.md R12). -/
def Params.acceptsProgram (p : Params) (prog : List Byte) : Bool :=
  decide (prog.length ≤ p.maxProgramLen)

end Config
end Sys2Proof
end

