-- ==== Sys2Proof/Decode.lean ====
section
/-! DEFINITION. Instruction encoding (30_encoding.md): the decoder, total on any bytes and rejecting
by name, and after it the encoder. -/

namespace Sys2Proof

/-- Load-immediate-to-accumulator (30_encoding.md R40). -/
def opcodeLda : Byte := 0xA9

/-- Halt/break (30_encoding.md R40). -/
def opcodeBrk : Byte := 0x00

/-- Transfer-accumulator-to-index (30_encoding.md R40). -/
def opcodeTax : Byte := 0xAA

/-- Increment-index (30_encoding.md R40). -/
def opcodeInx : Byte := 0xE8

/-- The opcode map's four values (30_encoding.md R40). -/
def definedOpcodes : List Byte := [opcodeLda, opcodeBrk, opcodeTax, opcodeInx]

/-- The opcode byte alone gives the length; an undefined opcode has none (30_encoding.md R44). -/
def opcodeLength (op : Byte) : Option Nat :=
  if op = opcodeLda then some 2
  else if op ∈ definedOpcodes then some 1
  else none

/-- Why bytes are no instruction. -/
inductive DecodeReject where
  /-- There is no opcode byte: the fetch is past the end of the program (40_engine.md R53). -/
  | noOpcode
  /-- The opcode byte has no defined case (30_encoding.md R45). -/
  | unimplemented (op : Byte)
  /-- The opcode needs an immediate and no byte follows (41_load.md R70). -/
  | noOperand (op : Byte)
deriving DecidableEq, Repr

/-- What the decoder answers: an instruction and the bytes after it, or a rejection. -/
inductive Decoded where
  | instr (i : Instr) (rest : List Byte)
  | reject (why : DecodeReject)
deriving DecidableEq, Repr

/-- The dispatch on the opcode byte "to exactly one case" (40_engine.md R58). All eight bits are
compared (30_encoding.md R40); the immediate is the whole next byte (R43) and is never decoded as an
opcode (R46). An undefined opcode is rejected before its operand is looked at (60_exceptions.md R86). -/
def decode (bytes : List Byte) : Decoded :=
  match bytes with
  | [] => .reject .noOpcode
  | op :: rest =>
    if op = opcodeLda then
      match rest with
      | [] => .reject (.noOperand op)
      | imm :: after => .instr (.ldaImm imm) after
    else if op = opcodeBrk then .instr .brk rest
    else if op = opcodeTax then .instr .tax rest
    else if op = opcodeInx then .instr .inx rest
    else .reject (.unimplemented op)

/-- The opcode of an instruction (30_encoding.md R40). -/
def Instr.opcode (i : Instr) : Byte :=
  match i with
  | .ldaImm _ => opcodeLda
  | .brk => opcodeBrk
  | .tax => opcodeTax
  | .inx => opcodeInx

/-- The length of an instruction in bytes (30_encoding.md R44). -/
def Instr.length (i : Instr) : Nat :=
  match i with
  | .ldaImm _ => 2
  | .brk => 1
  | .tax => 1
  | .inx => 1

/-- Formats OP and OPI, the bytes in increasing address order (30_encoding.md R41, R42). -/
def encode (i : Instr) : List Byte :=
  match i with
  | .ldaImm imm => [opcodeLda, imm]
  | .brk => [opcodeBrk]
  | .tax => [opcodeTax]
  | .inx => [opcodeInx]

/-- A listing is assembled by writing the instructions' bytes in order, with no gaps, headers or
padding (30_encoding.md R47). -/
def assemble (listing : List Instr) : List Byte :=
  listing.flatMap encode

/-- The instructions of a byte sequence read one after another from its first byte, at most `fuel` of
them; none where a byte sequence is rejected or is longer. -/
def disassemble (fuel : Nat) (bytes : List Byte) : Option (List Instr) :=
  match fuel, bytes with
  | _, [] => some []
  | 0, _ :: _ => none
  | fuel + 1, b :: bs =>
    match decode (b :: bs) with
    | .reject _ => none
    | .instr i rest => (disassemble fuel rest).map (i :: ·)

/-- The bytes of an opcode-table word: bits 7..0 are the first byte and bits 15..8 the second, and
every bit at or above `nbits` is 0 (log 22). -/
def tableBytes (nbits w : Nat) : List Byte :=
  let v := w % 2 ^ nbits
  [BitVec.ofNat 8 (v % 256), BitVec.ofNat 8 (v / 256 % 256)]

/-- The instruction the decoder reads from an opcode-table word (log 22). -/
def decodeTableWord (nbits w : Nat) : Option Instr :=
  match decode (tableBytes nbits w) with
  | .instr i _ => some i
  | .reject _ => none

end Sys2Proof
end

