-- ==== Sys2Proof/Machine/State.lean ====
section
/-! DEFINITION. The state of CORE as plain data (10_state.md): the tuple (A, X, status, PC, run) of
R27, and beside it the program, the step's read-only input (log 1). -/

namespace Sys2Proof.Machine

/-- The one address space, the program, as address and byte pairs in the canonical form that
`Memory.wf` (Machine/Ops.lean) says (20_memory.md R30). An unlisted address holds nothing. -/
abbrev Memory := List Host.Cell

/-- The two fault reasons (60_exceptions.md R80). -/
inductive FaultReason where
  /-- The opcode byte is not one of the four (60_exceptions.md R81). -/
  | unimplementedOpcode
  /-- 0xA9 is the last program byte (60_exceptions.md R82, log 9). -/
  | operandOutOfBounds
deriving DecidableEq, Repr

/-- The state of the dispatch loop (10_state.md R26). -/
inductive RunState where
  /-- The loop will fetch at PC. -/
  | running
  /-- The halt opcode was executed (60_exceptions.md R84). -/
  | halted
  /-- An opcode fetch found PC = L (60_exceptions.md R83, log 8). -/
  | endOfProgram
  /-- A fault ended the run; its record is the reason, the opcode byte and the index that byte was
  fetched from (60_exceptions.md R80, log 12). -/
  | faulted (reason : FaultReason) (opcode : Byte) (pc : Nat)
deriving DecidableEq, Repr

/-- The machine's state. No other state exists (10_state.md R27). -/
structure State where
  /-- `register_a`, the accumulator (10_state.md R20). -/
  A : Byte
  /-- `register_x`, the index register (10_state.md R21). -/
  X : Byte
  /-- The flag register NVss-DIZC (10_state.md R22). -/
  status : Byte
  /-- `program_counter`, a byte index into the program (10_state.md R25, log 3). -/
  PC : Nat
  /-- The run state (10_state.md R26). -/
  run : RunState
  /-- The program, which no step writes (20_memory.md R31, log 1). -/
  program : Memory
deriving DecidableEq, Repr

/-- The machine right after reset: every field zero and run = Running (10_state.md R28,
70_reset_and_hazards.md R100). No program is placed (R102, log 2). -/
def State.reset : State :=
  { A := 0x00, X := 0x00, status := 0x00, PC := 0, run := .running, program := [] }

/-- Why a step has no next state. -/
inductive Fault where
  /-- Raised by `step` in a Halted, EndOfProgram or Faulted state, which has no step (40_engine.md
  R52, R66). Safe: the model stops (log 5). The engine's own faults are no outcome of this kind: they
  are next states whose run is Faulted (log 6). -/
  | noStep (ended : RunState)
deriving DecidableEq, Repr

/-- What the model gives no meaning to. -/
inductive Refusal where
  /-- An instruction without a meaning yet, by its mnemonic; raised by no arm of `exec`. Safe. -/
  | notModelled (mnemonic : String)
  /-- Raised by the entry point `runProgram` for a program longer than `MAX_PROGRAM_LEN`
  (20_memory.md R30). Safe: the spec gives no run of it (log 4). -/
  | programTooLong (length limit : Nat)
deriving DecidableEq, Repr

end Sys2Proof.Machine
end

