-- ==== Sys2Proof/Machine/Ops.lean ====
section
/-! DEFINITION. The named operations over memory and registers, the ends of a run (faults among them)
and run entry. -/

namespace Sys2Proof.Machine

/-! ### The program -/

/-- The byte at an address, or none where the address holds nothing. It changes no state
(20_memory.md R32); under `Memory.wf` it answers none exactly at L and above (R30). -/
def Memory.read (m : Memory) (addr : Nat) : Option Byte :=
  match m with
  | [] => none
  | (a, b) :: rest => if a = addr then some b else Memory.read rest addr

/-- The listed addresses are `start`, `start + 1`, … in this order. -/
def Memory.wfFrom (start : Nat) (m : Memory) : Bool :=
  match m with
  | [] => true
  | (a, _) :: rest => a == start && Memory.wfFrom (start + 1) rest

/-- The canonical form of a program: the addresses 0..L−1, each once, rising (20_memory.md R35,
log 18). So L is the number of listed bytes. -/
def Memory.wf (m : Memory) : Bool := Memory.wfFrom 0 m

/-- The bytes laid out from an address up. -/
def Memory.ofBytesFrom (start : Nat) (bytes : List Byte) : Memory :=
  match bytes with
  | [] => []
  | b :: bs => (start, b) :: Memory.ofBytesFrom (start + 1) bs

/-- The program of a byte sequence: address i holds the i-th byte (20_memory.md R30). This is the
only operation that makes a program; no operation writes one (R31). -/
def Memory.ofBytes (bytes : List Byte) : Memory := Memory.ofBytesFrom 0 bytes

/-- `L`, the length of the program (00_scope.md R15). -/
def State.L (s : State) : Nat := s.program.length

/-! ### Register writes (00_scope.md R14) -/

/-- `A <- v`. -/
def State.setA (s : State) (v : Byte) : State := { s with A := v }

/-- `X <- v`. -/
def State.setX (s : State) (v : Byte) : State := { s with X := v }

/-- `status <- v`, the whole register. -/
def State.setStatus (s : State) (v : Byte) : State := { s with status := v }

/-- `PC <- target`. -/
def State.setPC (s : State) (target : Nat) : State := { s with PC := target }

/-- `run <- r`. -/
def State.setRun (s : State) (r : RunState) : State := { s with run := r }

/-- `(v + 1) mod 256`, the only arithmetic of CORE (44_increment.md R77). -/
def increment (v : Byte) : Byte := v + 1

/-- The loop's post-increment: `PC <- PC + 1` if the body left the run Running (40_engine.md R59). -/
def State.postIncrement (s : State) : State :=
  match s.run with
  | .running => s.setPC (s.PC + 1)
  | .halted => s
  | .endOfProgram => s
  | .faulted _ _ _ => s

/-! ### The ends of a run

CORE has no trap entry that saves or jumps (60_exceptions.md R87) and no return from a fault (R89):
the record in `run` is the whole of it, and only run entry (`State.enter`) leaves a terminal state. -/

/-- The cause code of a fault reason (60_exceptions.md R80, log 12). -/
def FaultReason.code (r : FaultReason) : Nat :=
  match r with
  | .unimplementedOpcode => 1
  | .operandOutOfBounds => 2

/-- `raise Fault(reason, op, PC)`: writes only `run`; PC is the index of the faulting opcode
(60_exceptions.md R90, log 6). -/
def State.raiseFault (s : State) (reason : FaultReason) (op : Byte) : State :=
  s.setRun (.faulted reason op s.PC)

/-- `stop Halted` (60_exceptions.md R84). -/
def State.stopHalted (s : State) : State := s.setRun .halted

/-- `stop EndOfProgram` (60_exceptions.md R83, log 8). -/
def State.stopEndOfProgram (s : State) : State := s.setRun .endOfProgram

/-- How a step ends when the fetched bytes are no instruction (60_exceptions.md R86). -/
def fetchRejected (why : DecodeReject) (s : State) : State :=
  match why with
  | .noOpcode => s.stopEndOfProgram
  | .unimplemented op => s.raiseFault .unimplementedOpcode op
  | .noOperand op => s.raiseFault .operandOutOfBounds op

/-! ### Run entry -/

/-- Run entry: the caller's program, `PC <- 0`, `run <- Running`; A, X and status are the start
state's, whose PC and run are ignored (70_reset_and_hazards.md R101, 40_engine.md R60, log 10). -/
def State.enter (start : State) (prog : List Byte) : State :=
  { A := start.A, X := start.X, status := start.status, PC := 0, run := .running,
    program := Memory.ofBytes prog }

end Sys2Proof.Machine
end

