-- ==== Sys2Proof/Machine/Halt.lean ====
section
/-! DEFINITION. Halt, opcode 0x00 (42_halt.md). -/

namespace Sys2Proof.Machine

/-- BRK: `stop Halted`, nothing else (42_halt.md R72). The post-increment that follows every body
leaves a halted state as it is (40_engine.md R59, log 14). -/
def execBrk (s : State) : Host.Outcome State Fault Refusal :=
  .next s.stopHalted.postIncrement

end Sys2Proof.Machine
end

