-- ==== Sys2Proof/Machine/Flags.lean ====
section
/-! DEFINITION. The status register's bits and every flag computation of the spec
(10_state.md R22, 40_engine.md R55–R57). -/

namespace Sys2Proof.Machine

/-- The bits of `status` by the letters of the layout string NVss-DIZC (10_state.md R22, log 15). -/
inductive StatusBit where
  | N
  | V
  | s5
  | s4
  | D
  | I
  | Z
  | C
deriving DecidableEq, Repr

/-- A status bit's number (10_state.md R22). -/
def StatusBit.index (b : StatusBit) : Nat :=
  match b with
  | .N => 7
  | .V => 6
  | .s5 => 5
  | .s4 => 4
  | .D => 3
  | .I => 2
  | .Z => 1
  | .C => 0

/-- `status[i]` for the bit of that name (00_scope.md R14). -/
def statusBit (status : Byte) (b : StatusBit) : Bool := status.getLsbD b.index

/-- `status[i] <- on`, which writes that bit alone (00_scope.md R14). -/
def setStatusBit (status : Byte) (b : StatusBit) (on : Bool) : Byte :=
  if on then status ||| (1#8 <<< b.index) else status &&& ~~~(1#8 <<< b.index)

/-- `SetZero(v)`: Z is 1 if v = 0x00, else 0 (40_engine.md R55). -/
def setZero (status v : Byte) : Byte := setStatusBit status .Z (v == 0x00)

/-- `SetNegative(v)`: N is bit 7 of v (40_engine.md R56). -/
def setNegative (status v : Byte) : Byte := setStatusBit status .N (v.getLsbD 7)

/-- `SetZN(v)`: `SetZero(v); SetNegative(v)` (40_engine.md R57). -/
def setZN (status v : Byte) : Byte := setNegative (setZero status v) v

/-- `SetZN(v)` on the machine's status register (40_engine.md R57). -/
def State.setZN (s : State) (v : Byte) : State := s.setStatus (Machine.setZN s.status v)

end Sys2Proof.Machine
end

