-- ==== Sys2Proof/Machine/Increment.lean ====
section
/-! DEFINITION. Increment index, opcode 0xE8 (44_increment.md). -/

namespace Sys2Proof.Machine

/-- INX: `X <- (X + 1) mod 256; SetZN(X)` and the post-increment, the flags from the new X
(44_increment.md R76). -/
def execInx (s : State) : Host.Outcome State Fault Refusal :=
  let counted := s.setX (increment s.X)
  .next (counted.setZN counted.X).postIncrement

end Sys2Proof.Machine
end

