-- ==== Sys2Proof/Machine/Operands.lean ====
section
/-! DEFINITION. Fetching an instruction's bytes. The opcode and the immediate are the only bytes a
step reads, and PC + 1 is the only address it computes (41_load.md R71). -/

namespace Sys2Proof.Machine

/-- PC is the index of the next opcode to fetch (10_state.md R25). -/
def opcodeAddress (s : State) : Nat := s.PC

/-- The immediate stands at PC + 1, where PC is the index of the opcode (30_encoding.md R42). -/
def operandAddress (s : State) : Nat := s.PC + 1

/-- The bytes of the instruction at PC: none past the end of the program (40_engine.md R53, log 7),
else the opcode (R54), and after it the operand byte if the opcode has one and the byte exists
(41_load.md R70). No other byte is read (42_halt.md R72, 30_encoding.md R45). -/
def fetchBytes (s : State) : List Byte :=
  match s.program.read (opcodeAddress s) with
  | none => []
  | some op =>
    if opcodeLength op = some 2 then op :: (s.program.read (operandAddress s)).toList
    else [op]

/-- "counter advances past it": LDA #imm's own advance over its operand, before the post-increment
(41_load.md R70, 40_engine.md R59). -/
def State.advanceOverOperand (s : State) : State := s.setPC (operandAddress s)

end Sys2Proof.Machine
end

