-- ==== Sys2Proof/Machine/Load.lean ====
section
/-! DEFINITION. Load immediate, opcode 0xA9 (41_load.md). -/

namespace Sys2Proof.Machine

/-- LDA #imm: `PC <- PC + 1; A <- imm; SetZN(A)` and the post-increment (41_load.md R70). That the
operand exists was checked when it was fetched (log 19). -/
def execLdaImm (imm : Byte) (s : State) : Host.Outcome State Fault Refusal :=
  let loaded := s.advanceOverOperand.setA imm
  .next (loaded.setZN loaded.A).postIncrement

end Sys2Proof.Machine
end

