-- ==== Sys2Proof/Machine/Transfer.lean ====
section
/-! DEFINITION. Transfer accumulator to index, opcode 0xAA (43_transfer.md). -/

namespace Sys2Proof.Machine

/-- TAX: `SetZN(old); X <- old; A <- 0x00` and the post-increment, the flags from the accumulator
before any register changes (43_transfer.md R74). -/
def execTax (s : State) : Host.Outcome State Fault Refusal :=
  let old := s.A
  .next (((s.setZN old).setX old).setA 0x00).postIncrement

end Sys2Proof.Machine
end

