-- ==== Sys2Proof/Machine/Step.lean ====
section
/-! DEFINITION. One step: fetch, decode, execute (40_engine.md R62), and the host's way to place one
instruction. -/

namespace Sys2Proof.Machine

/-- One whole instruction, atomically (40_engine.md R51, R62). Defined for run = Running only (R52,
log 5). -/
def step (s : State) : Host.Outcome State Fault Refusal :=
  match s.run with
  | .running =>
    match decode (fetchBytes s) with
    | .instr i _ => exec i s
    | .reject why => .next (fetchRejected why s)
  | .halted => .fault (.noStep .halted)
  | .endOfProgram => .fault (.noStep .endOfProgram)
  | .faulted reason op pc => .fault (.noStep (.faulted reason op pc))

/-- Run entry with a program of one opcode-table word's bytes, so that the next step runs it
(70_reset_and_hazards.md R101, log 2, log 22). -/
def State.withFetchWord (s : State) (nbits w : Nat) : State :=
  s.enter (tableBytes nbits w)

end Sys2Proof.Machine
end

