-- ==== Sys2Proof/Machine/Run.lean ====
section
/-! DEFINITION. The engine's one entry point: a run of a program to its end (40_engine.md R60, R61). -/

namespace Sys2Proof.Machine

/-- What a caller can learn from a run, and no more (40_engine.md R60, R69). -/
structure Output where
  A : Byte
  X : Byte
  status : Byte
  PC : Nat
  /-- The final `run` value: Halted, EndOfProgram or Faulted(reason, opcode, pc). -/
  outcome : RunState
deriving DecidableEq, Repr

/-- The outputs read from a state (40_engine.md R60). -/
def State.output (s : State) : Output :=
  { A := s.A, X := s.X, status := s.status, PC := s.PC, outcome := s.run }

/-- `while run = Running: Step` (40_engine.md R61), at most `fuel` steps (log 24). -/
def runLoop (fuel : Nat) (s : State) : Host.Outcome State Fault Refusal :=
  match fuel with
  | 0 => .next s
  | fuel + 1 =>
    match s.run with
    | .running =>
      match step s with
      | .next t => runLoop fuel t
      | .fault r => .fault r
      | .refused r => .refused r
    | .halted => .next s
    | .endOfProgram => .next s
    | .faulted _ _ _ => .next s

/-- `Run(prog, start)` (40_engine.md R61): run entry, then the loop, whose L + 1 steps are enough
(R67, log 24). A program longer than the engine accepts is refused (log 4).
DESIGN CHOICE: parameters that break 2^PC_BITS − 1 ≥ MAX_PROGRAM_LEN (00_scope.md R12), for which the
spec gives no run, are not refused; the run goes on as if PC were wide enough (log 25). -/
def runProgram (p : Config.Params) (prog : List Byte) (start : State) :
    Host.Outcome Output Fault Refusal :=
  if p.acceptsProgram prog then
    match runLoop (prog.length + 1) (start.enter prog) with
    | .next t => .next t.output
    | .fault r => .fault r
    | .refused r => .refused r
  else .refused (.programTooLong prog.length p.maxProgramLen)

end Sys2Proof.Machine
end

