-- ==== Sys2Proof/Safety.lean ====
section
/-! DEFINITION. What claims about runs speak of: terminal states, clean halts, runs without a fault,
runs of many steps, and the invariant of the reachable states. -/

namespace Sys2Proof.Machine

/-- `k` steps of the machine, by the host's own iteration. -/
def steps (k : Nat) (s : State) : Host.Outcome State Fault Refusal := Host.Core.run Sys2Proof.core k s

/-- The bytes stand in the program from an address up. -/
def State.holdsAt (s : State) (addr : Nat) (bytes : List Byte) : Prop :=
  ∀ k b, bytes[k]? = some b → s.program.read (addr + k) = some b

/-- The flag update "as one formula" (40_engine.md R57), in which the claims state a new status. -/
def flagFormula (status v : Byte) : Byte :=
  (status &&& 0x7D) ||| (v &&& 0x80) ||| (if v = 0x00 then 0x02 else 0x00)

/-- A run state with no outgoing step (10_state.md R26, 40_engine.md R66). -/
def RunState.isTerminal (r : RunState) : Bool :=
  match r with
  | .running => false
  | .halted => true
  | .endOfProgram => true
  | .faulted _ _ _ => true

/-- The outcome is a fault (60_exceptions.md R80). -/
def RunState.isFault (r : RunState) : Bool :=
  match r with
  | .faulted _ _ _ => true
  | .running => false
  | .halted => false
  | .endOfProgram => false

/-- The premise "no fault" that claims about a final state take (60_exceptions.md R90, R97). -/
def State.noFault (s : State) : Bool := !s.run.isFault

/-- "Halted cleanly" is outcome = Halted and nothing else (40_engine.md R69). -/
def State.haltedCleanly (s : State) : Bool := decide (s.run = .halted)

/-- A fault's record fits the program: the recorded opcode stands at the recorded index, and it is an
undefined one, or 0xA9 as the last byte (60_exceptions.md R81, R82). -/
def faultRecordFits (s : State) (reason : FaultReason) (op : Byte) (pc : Nat) : Bool :=
  decide (pc = s.PC) && decide (s.program.read pc = some op) &&
    match reason with
    | .unimplementedOpcode => decide (op ∉ definedOpcodes)
    | .operandOutOfBounds => decide (op = opcodeLda) && decide (pc + 1 = s.L)

/-- What `run` says agrees with PC and the program (10_state.md R25, R26, 40_engine.md R68). -/
def State.runFits (s : State) : Bool :=
  match s.run with
  | .running => decide (s.PC ≤ s.L)
  | .halted => decide (s.program.read s.PC = some opcodeBrk)
  | .endOfProgram => decide (s.PC = s.L)
  | .faulted reason op pc => faultRecordFits s reason op pc

/-- The invariant of the reachable states: the program is in canonical form (20_memory.md R30), and
`run` agrees with PC and the program. -/
abbrev State.Inv (s : State) : Prop := s.program.wf = true ∧ s.runFits = true

end Sys2Proof.Machine
end

