-- ==== Sys2Proof/Certificates/Slice0/Obligations.lean ====
section
/-! DEFINITION. The statements for the provers. Each docstring says which rule or section of the spec
it formalises; where a statement rests on the spec's own decision or inference, or on a choice of the
model, it says so and names the log entry. -/

open Sys2Proof Sys2Proof.Machine

/-! ### Reset and run entry -/

/-- 70_reset_and_hazards.md R100: every field zero and run = Running, every status bit 0, and execution
of any program given to the reset state begins at index 0. -/
def Obligations.ResetCreatesTheZeroState : Prop :=
  State.reset.A = 0x00 ∧ State.reset.X = 0x00 ∧ State.reset.status = 0x00 ∧ State.reset.PC = 0 ∧
  State.reset.run = .running ∧ (∀ b, statusBit State.reset.status b = false) ∧
  ∀ prog, opcodeAddress (State.reset.enter prog) = 0

/-- 70_reset_and_hazards.md section 1, run entry (the spec's decision D6, log 10): PC and run are set,
A, X and status are the start state's, the program is the caller's, and neither the entered state nor
the result of a run depends on anything else of the start state. -/
def Obligations.RunEntryTakesOnlyAXAndStatus : Prop :=
  ∀ (start other : State) (prog : List Byte),
    (start.enter prog).A = start.A ∧ (start.enter prog).X = start.X ∧
    (start.enter prog).status = start.status ∧
    (start.enter prog).PC = 0 ∧ (start.enter prog).run = .running ∧
    (∀ i, (start.enter prog).program.read i = prog[i]?) ∧
    (start.A = other.A → start.X = other.X → start.status = other.status →
      start.enter prog = other.enter prog ∧
      ∀ p, runProgram p prog start = runProgram p prog other)

/-! ### Encoding -/

/-- 30_encoding.md R40, R41, R42, R43: the four words written out bit by bit decode to the four
instructions, the immediate is the whole byte after 0xA9 whatever its value, and no other first byte
is an instruction. -/
def Obligations.OpcodeMapDecodes : Prop :=
  (∀ imm rest, decode (0b10101001#8 :: imm :: rest) = .instr (.ldaImm imm) rest) ∧
  (∀ rest, decode (0b00000000#8 :: rest) = .instr .brk rest) ∧
  (∀ rest, decode (0b10101010#8 :: rest) = .instr .tax rest) ∧
  (∀ rest, decode (0b11101000#8 :: rest) = .instr .inx rest) ∧
  ∀ op rest, op ≠ 0b10101001#8 → op ≠ 0b00000000#8 → op ≠ 0b10101010#8 → op ≠ 0b11101000#8 →
    ∀ i after, decode (op :: rest) ≠ .instr i after

/-- 30_encoding.md R44: the opcode byte alone gives the length, 2 for 0xA9 and 1 for the other three,
none for an undefined opcode; and an instruction takes exactly that many bytes, the first of them its
opcode. -/
def Obligations.OpcodeByteGivesTheLength : Prop :=
  opcodeLength 0xA9 = some 2 ∧ opcodeLength 0x00 = some 1 ∧ opcodeLength 0xAA = some 1 ∧
  opcodeLength 0xE8 = some 1 ∧
  (∀ op, op ≠ 0xA9 → op ≠ 0x00 → op ≠ 0xAA → op ≠ 0xE8 → opcodeLength op = none) ∧
  ∀ op bytes i rest, decode (op :: bytes) = .instr i rest →
    i.opcode = op ∧ opcodeLength op = some i.length ∧ (op :: bytes).length = i.length + rest.length

/-- 30_encoding.md sections 1 to 3: decoding and encoding agree in both directions, with every operand
and whatever bytes follow. -/
def Obligations.DecodeIsTheInverseOfEncode : Prop :=
  ∀ bytes i rest, decode bytes = .instr i rest ↔ bytes = encode i ++ rest

/-- 30_encoding.md sections 1 to 3 and 6: a listing assembled with no gaps is read back instruction by
instruction, and whatever is read as a listing is that listing's assembly, so a byte sequence has at
most one reading. -/
def Obligations.AssembledListingsReadBack : Prop :=
  (∀ listing fuel, (assemble listing).length ≤ fuel →
    disassemble fuel (assemble listing) = some listing) ∧
  ∀ fuel bytes listing, disassemble fuel bytes = some listing → assemble listing = bytes

/-! ### Fetch and dispatch -/

/-- 40_engine.md sections 2 and 4: a running step whose bytes at PC are the encoding of an instruction
is the meaning of that instruction at that state; the step adds nothing around it. -/
def Obligations.StepRunsTheInstructionAtPC : Prop :=
  (∀ (i : Instr) (s : State), s.run = .running → s.holdsAt s.PC (encode i) → step s = exec i s) ∧
  ∀ (i : Instr) (s : State) rest, s.run = .running → decode (fetchBytes s) = .instr i rest →
    step s = exec i s

/-- 40_engine.md section 2 (the spec's decisions D3 and D4, log 7 and log 8): an opcode fetch at or past
L ends the run with EndOfProgram, changes nothing else, and the empty program ends so at its first
step. -/
def Obligations.FetchPastTheEndStops : Prop :=
  (∀ s : State, s.run = .running → s.program.wf = true → s.L ≤ s.PC →
    step s = .next { s with run := .endOfProgram }) ∧
  ∀ start : State, step (start.enter []) = .next { start.enter [] with run := .endOfProgram }

/-- 30_encoding.md R45 and 60_exceptions.md R81: exactly 252 opcode values are illegal, and a running
step that fetches one raises UnimplementedOpcode with that opcode and PC, reads no further byte and
changes nothing but `run`. -/
def Obligations.IllegalOpcodeFaults : Prop :=
  (∀ op : Byte, op ∉ definedOpcodes ↔
    (0x01 ≤ op.toNat ∧ op.toNat ≤ 0xA8) ∨ (0xAB ≤ op.toNat ∧ op.toNat ≤ 0xE7) ∨
      (0xE9 ≤ op.toNat ∧ op.toNat ≤ 0xFF)) ∧
  ((List.range 256).filter (fun n => decide (BitVec.ofNat 8 n ∉ definedOpcodes))).length = 252 ∧
  ∀ (s : State) (op : Byte), s.run = .running → s.program.read s.PC = some op →
    op ∉ definedOpcodes → fetchBytes s = [op] ∧
    step s = .next { s with run := .faulted .unimplementedOpcode op s.PC }

/-- 40_engine.md section 6, the transition table (the spec's own derivation from the step listing, with
its decisions D4 and D5): every running state whose PC is at most L takes exactly the row its condition
names. -/
def Obligations.TransitionTableIsComplete : Prop :=
  ∀ s : State, s.run = .running → s.program.wf = true → s.PC ≤ s.L →
    (s.PC = s.L → step s = .next { s with run := .endOfProgram }) ∧
    (s.PC < s.L → ∃ op, s.program.read s.PC = some op ∧
      (op = 0x00 → step s = .next { s with run := .halted }) ∧
      (op = 0xAA → step s = .next
        { s with A := 0x00, X := s.A, status := flagFormula s.status s.A, PC := s.PC + 1 }) ∧
      (op = 0xE8 → step s = .next
        { s with X := BitVec.ofNat 8 ((s.X.toNat + 1) % 256),
                 status := flagFormula s.status (BitVec.ofNat 8 ((s.X.toNat + 1) % 256)),
                 PC := s.PC + 1 }) ∧
      (op = 0xA9 → s.PC + 1 < s.L → ∃ imm, s.program.read (s.PC + 1) = some imm ∧
        step s = .next { s with A := imm, status := flagFormula s.status imm, PC := s.PC + 2 }) ∧
      (op = 0xA9 → s.PC + 1 = s.L →
        step s = .next { s with run := .faulted .operandOutOfBounds 0xA9 s.PC }) ∧
      (op ≠ 0x00 → op ≠ 0xA9 → op ≠ 0xAA → op ≠ 0xE8 →
        step s = .next { s with run := .faulted .unimplementedOpcode op s.PC }))

/-! ### The instructions -/

/-- 41_load.md section of 0xA9, the instruction's own effect once its operand is fetched: A = imm, Z and
N from imm, the other status bits kept, PC moved on by two, all else unchanged. That the meaning
completes in EVERY running state, also where PC + 1 ≥ L, is the model's choice (log 19): the fetch checks
the operand's bound, and the fault of 41_load.md there is stated of the step (LoadImmediateStep). -/
def Obligations.LoadImmediateResult : Prop :=
  ∀ (imm : Byte) (s : State), s.run = .running →
    exec (.ldaImm imm) s = .next
      { s with A := imm, status := flagFormula s.status imm, PC := s.PC + 2 }

/-- 41_load.md, the whole step of 0xA9 (its bound check is the spec's decision D5, log 9): with its
operand byte in the program it loads it, whatever its value, with Z and N from it; as the last byte it
faults and changes nothing else; a third case does not exist. -/
def Obligations.LoadImmediateStep : Prop :=
  ∀ s : State, s.run = .running → s.program.wf = true → s.program.read s.PC = some 0xA9 →
    (∀ imm, s.program.read (s.PC + 1) = some imm → ∃ t, step s = .next t ∧
      t = { s with A := imm, status := t.status, PC := s.PC + 2 } ∧
      statusBit t.status .Z = (imm == 0x00) ∧ statusBit t.status .N = imm.getLsbD 7 ∧
      ∀ b, b ≠ .Z → b ≠ .N → statusBit t.status b = statusBit s.status b) ∧
    (s.PC + 1 = s.L → step s = .next { s with run := .faulted .operandOutOfBounds 0xA9 s.PC }) ∧
    (s.PC + 1 = s.L ∨ ∃ imm, s.program.read (s.PC + 1) = some imm)

/-- 42_halt.md section of 0x00: BRK halts, reads no further byte and changes nothing but `run`, so PC
keeps the index of the 0x00; the halted state has no step; and a 0x00 in an operand position does not
halt. That exec of BRK (the first clause) completes also at a state that is NOT Running is the model's
choice (log 20): the meanings do not check `run`, and by the spec nothing executes there; the step
clauses speak of running states alone. -/
def Obligations.HaltOpcodeOnlyHalts : Prop :=
  (∀ s : State, exec .brk s = .next { s with run := .halted }) ∧
  (∀ s : State, s.run = .running → s.program.read s.PC = some 0x00 →
    fetchBytes s = [0x00] ∧ step s = .next { s with run := .halted }) ∧
  (∀ s t : State, s.run = .halted → step s ≠ .next t) ∧
  ∀ s : State, s.run = .running → s.program.read s.PC = some 0xA9 →
    s.program.read (s.PC + 1) = some 0x00 →
    ∃ t, step s = .next t ∧ t.run = .running ∧ t.A = 0x00

/-- 43_transfer.md R74: TAX copies the accumulator to the index register, clears the accumulator and
takes Z and N from the accumulator's old value; the old X has no influence; a second TAX copies 0x00
and sets Z = 1 and N = 0. -/
def Obligations.TransferMovesAndClears : Prop :=
  (∀ s : State, s.run = .running →
    exec .tax s = .next
      { s with A := 0x00, X := s.A, status := flagFormula s.status s.A, PC := s.PC + 1 }) ∧
  (∀ s : State, s.run = .running → s.program.read s.PC = some 0xAA → step s = exec .tax s) ∧
  (∀ (s : State) (x : Byte) (t u : State), exec .tax s = .next t →
    exec .tax { s with X := x } = .next u → t = u) ∧
  ∀ s t u : State, exec .tax s = .next t → exec .tax t = .next u →
    u.A = 0x00 ∧ u.X = 0x00 ∧ statusBit u.status .Z = true ∧ statusBit u.status .N = false

/-- 43_transfer.md section of 0xAA (the spec's own derivation): the flags of TAX are those of the new X,
and for every old accumulator but 0x00 they are not those of the new accumulator, so an order that
clears first is wrong. -/
def Obligations.TransferFlagsComeFromOldAccumulator : Prop :=
  ∀ s t : State, exec .tax s = .next t →
    t.status = setZN s.status t.X ∧ (s.A ≠ 0x00 → t.status ≠ setZN s.status t.A) ∧
    (s.A = 0x00 → t.status = setZN s.status t.A)

/-- 44_increment.md R76: INX adds one to X modulo 256, takes Z and N from the new X, writes neither
carry nor overflow, leaves A, and does so at every running state, the wrap 0xFF → 0x00 included. -/
def Obligations.IncrementWrapsModulo256 : Prop :=
  (∀ s : State, s.run = .running → ∃ t, exec .inx s = .next t ∧
    t.X.toNat = (s.X.toNat + 1) % 256 ∧
    t = { s with X := t.X, status := flagFormula s.status t.X, PC := s.PC + 1 } ∧
    statusBit t.status .C = statusBit s.status .C ∧ statusBit t.status .V = statusBit s.status .V) ∧
  (∀ s : State, s.run = .running → s.program.read s.PC = some 0xE8 → step s = exec .inx s) ∧
  ∀ s t : State, s.X = 0xFF → exec .inx s = .next t →
    t.X = 0x00 ∧ statusBit t.status .Z = true ∧ statusBit t.status .N = false

/-! ### Flags -/

/-- 40_engine.md R55: SetZero writes bit 1, to 1 if the value is 0x00 and to 0 else, and no other
bit. -/
def Obligations.SetZeroWritesZAlone : Prop :=
  ∀ status v : Byte,
    (setZero status v).getLsbD 1 = decide (v = 0x00) ∧
    ∀ i, i ≠ 1 → (setZero status v).getLsbD i = status.getLsbD i

/-- 40_engine.md R56: SetNegative copies bit 7 of the value to bit 7 of status and writes no other
bit. -/
def Obligations.SetNegativeWritesNAlone : Prop :=
  ∀ status v : Byte,
    (setNegative status v).getLsbD 7 = v.getLsbD 7 ∧
    ∀ i, i ≠ 7 → (setNegative status v).getLsbD i = status.getLsbD i

/-- 40_engine.md R57: SetZN is the one formula, its two helpers commute, bits 0 and 2 to 6 keep their
values, and each of 0xA9, 0xAA and 0xE8 applies it once, to imm, the old A and the new X, while 0x00
never does. -/
def Obligations.SetZNIsOneFormula : Prop :=
  (∀ status v : Byte, setZN status v =
      (status &&& 0x7D) ||| (v &&& 0x80) ||| (if v = 0x00 then 0x02 else 0x00) ∧
    setZN status v = setZero (setNegative status v) v ∧
    ∀ i, i ≠ 1 → i ≠ 7 → (setZN status v).getLsbD i = status.getLsbD i) ∧
  ∀ s t : State,
    (∀ imm, exec (.ldaImm imm) s = .next t → t.status = setZN s.status imm) ∧
    (exec .tax s = .next t → t.status = setZN s.status s.A) ∧
    (exec .inx s = .next t → t.status = setZN s.status (s.X + 1)) ∧
    (exec .brk s = .next t → t.status = s.status)

/-- 10_state.md R24: over a run of any length bits 0 and 2 to 6 keep their values, and no step reads any
status bit: from two states that differ in status alone a step gives two states that differ in status
alone, where either both keep their status or both get the same Z and N. -/
def Obligations.StatusBitsAreKeptAndNeverRead : Prop :=
  (∀ (k : Nat) (s t : State), steps k s = .next t →
    ∀ b, b ≠ .Z → b ≠ .N → statusBit t.status b = statusBit s.status b) ∧
  ∀ (s : State) (status : Byte), s.run = .running →
    ∃ t u, step s = .next t ∧ step { s with status := status } = .next u ∧
      u = { t with status := u.status } ∧
      ((t.status = s.status ∧ u.status = status) ∨
        (statusBit t.status .Z = statusBit u.status .Z ∧
          statusBit t.status .N = statusBit u.status .N))

/-! ### Frames -/

/-- 10_state.md sections 1 and 2, 20_memory.md section 1 and the register lists of 41_load.md,
42_halt.md, 43_transfer.md and 44_increment.md: what each instruction leaves unchanged. A is written by
LDA #imm and TAX only, X by TAX and INX only, the status bits other than Z and N by none, status and PC
by no BRK, `run` by BRK only, and every byte of the program by none, its length included. -/
def Obligations.MeaningsChangeOnlyTheirDestinations : Prop :=
  ∀ (i : Instr) (s t : State), exec i s = .next t →
    ((∀ imm, i ≠ .ldaImm imm) → i ≠ .tax → t.A = s.A) ∧
    (i ≠ .tax → i ≠ .inx → t.X = s.X) ∧
    (∀ b, b ≠ .Z → b ≠ .N → statusBit t.status b = statusBit s.status b) ∧
    (i = .brk → t.status = s.status ∧ t.PC = s.PC) ∧
    (i ≠ .brk → t.run = s.run) ∧
    (∀ a, t.program.read a = s.program.read a) ∧ t.L = s.L

/-- 20_memory.md R31: no step, and so no run of steps, writes the program; every byte has for the whole
run the value the caller supplied at run entry, and past L there is nothing. -/
def Obligations.ProgramIsNeverWritten : Prop :=
  (∀ (k : Nat) (s t : State), steps k s = .next t →
    t.L = s.L ∧ ∀ a, t.program.read a = s.program.read a) ∧
  ∀ (k : Nat) (start : State) (prog : List Byte) (t : State), steps k (start.enter prog) = .next t →
    t.L = prog.length ∧ ∀ a, t.program.read a = prog[a]?

/-- 20_memory.md section 1 and the model's canonical form (log 18): two programs in canonical form that
read the same at every address are the same data. -/
def Obligations.EqualReadsMeanEqualPrograms : Prop :=
  ∀ m n : Memory, m.wf = true → n.wf = true → (∀ a, m.read a = n.read a) → m = n

/-- 40_engine.md R59: a step that leaves the run Running has advanced PC by one after the body, so by two
over 0xA9 and its operand and by one over 0xAA and 0xE8; after 0x00, a fault or the end of the program
PC is not advanced. -/
def Obligations.ProgramCounterAdvance : Prop :=
  ∀ s t : State, step s = .next t →
    (t.run = .running →
      (s.program.read s.PC = some 0xA9 ∧ t.PC = s.PC + 2) ∨
      ((s.program.read s.PC = some 0xAA ∨ s.program.read s.PC = some 0xE8) ∧ t.PC = s.PC + 1)) ∧
    (t.run ≠ .running → t.PC = s.PC)

/-! ### Faults and ends of a run -/

/-- 60_exceptions.md R90: a fault writes only `run`; A, X, status and PC keep their values, and PC is the
index of the opcode that the record holds. -/
def Obligations.FaultWritesOnlyRun : Prop :=
  ∀ (s t : State) reason op pc, step s = .next t → t.run = .faulted reason op pc →
    t = { s with run := .faulted reason op pc } ∧ pc = s.PC ∧ s.program.read s.PC = some op

/-- 60_exceptions.md sections 2 and 5 (the operand fault and the order of the checks are the spec's
decisions D5 and D11, log 9 and log 11): a step ends in each fault exactly under its condition, and an
undefined opcode as the last byte reports UnimplementedOpcode. -/
def Obligations.FaultsAreRaisedExactlyWhen : Prop :=
  ∀ s t : State, s.program.wf = true → step s = .next t →
    (∀ op pc, t.run = .faulted .unimplementedOpcode op pc ↔
      pc = s.PC ∧ s.program.read s.PC = some op ∧ op ∉ definedOpcodes) ∧
    (∀ op pc, t.run = .faulted .operandOutOfBounds op pc ↔
      pc = s.PC ∧ op = 0xA9 ∧ s.program.read s.PC = some 0xA9 ∧ s.PC + 1 = s.L)

/-- 60_exceptions.md section 5 (the spec's decision D11, log 11): the first check that holds decides how
a step ends, and no two hold together. -/
def Obligations.FirstCheckThatHoldsDecides : Prop :=
  ∀ s : State, s.run = .running → s.program.wf = true →
    ∃ t, step s = .next t ∧
      (s.L ≤ s.PC → t.run = .endOfProgram) ∧
      ∀ op, s.program.read s.PC = some op →
        t.run =
          if op ∉ definedOpcodes then .faulted .unimplementedOpcode op s.PC
          else if op = 0xA9 ∧ s.L ≤ s.PC + 1 then .faulted .operandOutOfBounds op s.PC
          else if op = 0x00 then .halted
          else .running

/-- 60_exceptions.md R84: Halted is the outcome of opcode 0x00 and of nothing else, and the only clean
halt. -/
def Obligations.CleanHaltExactlyByOpcodeZero : Prop :=
  ∀ s t : State, step s = .next t →
    (t.haltedCleanly = true ↔ s.program.read s.PC = some 0x00) ∧
    (t.haltedCleanly = true → t = { s with run := .halted })

/-- 60_exceptions.md section 3 (the spec's decision D4, log 8): EndOfProgram is the outcome of an opcode
fetch at or past L and of nothing else, is no fault and no clean halt, and keeps every register. -/
def Obligations.EndOfProgramExactlyPastTheEnd : Prop :=
  ∀ s t : State, s.program.wf = true → step s = .next t →
    (t.run = .endOfProgram ↔ s.L ≤ s.PC) ∧
    (t.run = .endOfProgram →
      t = { s with run := .endOfProgram } ∧ t.noFault = true ∧ t.haltedCleanly = false)

/-- 40_engine.md R52: a step is defined exactly when run = Running; a Halted, EndOfProgram or Faulted
state, and no other, has no step. -/
def Obligations.StepIsDefinedExactlyWhenRunning : Prop :=
  (∀ s : State, (∃ t, step s = .next t) ↔ s.run = .running) ∧
  ∀ s : State, (∀ t, step s ≠ .next t) ↔
    s.run = .halted ∨ s.run = .endOfProgram ∨ ∃ reason op pc, s.run = .faulted reason op pc

/-- 40_engine.md section 6 (the spec's decision D7; that the model answers the fault noStep is log 5):
terminal states are absorbing, no number of steps goes on from one, and only a new run entry leaves
it. -/
def Obligations.TerminalStatesAreAbsorbing : Prop :=
  ∀ s : State, s.run.isTerminal = true →
    (∀ k, steps (k + 1) s = .fault (.noStep s.run)) ∧
    ∀ prog, (s.enter prog).run = .running ∧ (s.enter prog).PC = 0

/-- 60_exceptions.md section 8 (the spec's own derivation): a fault that any step of a run raised is the
outcome of the whole run, for admissible parameters and, by the model's choice, others too (log 25). -/
def Obligations.FaultIsSeenAtTheEnd : Prop :=
  ∀ (p : Config.Params) (prog : List Byte) (start : State) (k : Nat) (u : State),
    p.acceptsProgram prog = true → steps k (start.enter prog) = .next u → u.noFault = false →
    ∃ out, runProgram p prog start = .next out ∧ out.outcome = u.run

/-! ### Whole runs -/

/-- 40_engine.md section 5, the Run listing: the entry point enters the run, takes steps while
run = Running, and answers the outputs of the state where the steps end. That it always ends is the
spec's own derivation of section 6 (log 24 for the model's bound of L + 1 steps). The premise that the
engine accepts the program is the model's (log 4), and no premise asks for admissible parameters
(log 25). -/
def Obligations.EntryPointIsTheWhileLoop : Prop :=
  ∀ (p : Config.Params) (prog : List Byte) (start : State), p.acceptsProgram prog = true →
    (∃ out, runProgram p prog start = .next out) ∧
    ∀ out, runProgram p prog start = .next out ↔
      ∃ k t, steps k (start.enter prog) = .next t ∧ t.run.isTerminal = true ∧
        out = { A := t.A, X := t.X, status := t.status, PC := t.PC, outcome := t.run }

/-- 40_engine.md section 6 (the spec's own derivation): every run ends within L + 1 steps, because every
step that leaves the run Running increases PC by at least one and not beyond L. -/
def Obligations.EveryRunEndsWithinLengthPlusOneSteps : Prop :=
  (∀ s t : State, s.Inv → step s = .next t → t.run = .running → s.PC + 1 ≤ t.PC ∧ t.PC ≤ t.L) ∧
  ∀ (start : State) (prog : List Byte), ∃ k t, k ≤ prog.length + 1 ∧ steps k (start.enter prog) = .next t ∧
    t.run.isTerminal = true

/-- 40_engine.md section 6 and 60_exceptions.md section 1: the entry point answers
one of the three outcomes for every program the engine accepts, and refuses a longer one. The refusal is
the model's choice (log 4), and so is that parameters which are not admissible run too (log 25). -/
def Obligations.EntryPointAnswersOneOfThreeOutcomes : Prop :=
  ∀ (p : Config.Params) (prog : List Byte) (start : State),
    (p.acceptsProgram prog = true →
      ∃ out, runProgram p prog start = .next out ∧ out.outcome.isTerminal = true) ∧
    (p.acceptsProgram prog = false →
      runProgram p prog start = .refused (.programTooLong prog.length p.maxProgramLen))

/-- 40_engine.md section 6 and 00_scope.md section 4 (the spec's own derivation): in every reachable state
PC is at most L, PC = L only while Running just before the EndOfProgram step or after it, and PC never
wraps at any admissible width. -/
def Obligations.ProgramCounterStaysWithinTheProgram : Prop :=
  ∀ (p : Config.Params) (prog : List Byte) (start : State) (k : Nat) (t : State),
    p.admissible = true → p.acceptsProgram prog = true →
    steps k (start.enter prog) = .next t →
    t.PC ≤ prog.length ∧
    (t.PC = prog.length → t.run = .endOfProgram ∨
      (t.run = .running ∧ step t = .next { t with run := .endOfProgram })) ∧
    t.PC < 2 ^ p.pcBits

/-! ### The invariant -/

/-- The invariant of Safety.lean holds at reset and at every run entry. -/
def Obligations.RunEntryMeetsTheInvariant : Prop :=
  State.reset.Inv ∧ ∀ (start : State) (prog : List Byte), (start.enter prog).Inv

/-- Every step keeps the invariant, from every state that meets it: the program stays in canonical form,
a running PC stays at most L, a halted PC stands at a 0x00, EndOfProgram stands at L, and a fault's record
fits the program. -/
def Obligations.EveryStepKeepsTheInvariant : Prop :=
  ∀ s t : State, s.Inv → step s = .next t → t.Inv
end

