-- ==== Sys2Proof/Laws/Flags.lean ====
section
/-! SUPPORT. The laws of the status register's bits. -/

namespace Sys2Proof.Machine

/-- Different names are different bits. -/
theorem StatusBit.index_inj {a b : StatusBit} (h : a.index = b.index) : a = b := by
  cases a <;> cases b <;> first | rfl | exact absurd h (by decide)

/-- A status bit is one of the eight bits. -/
theorem StatusBit.index_lt (b : StatusBit) : b.index < 8 := by cases b <;> decide

/-- Two status values are equal if their named bits are. -/
theorem status_ext {x y : Byte} (h : ∀ b : StatusBit, statusBit x b = statusBit y b) : x = y := by
  apply BitVec.eq_of_getLsbD_eq
  intro i hi
  match i, hi with
  | 0, _ => exact h .C
  | 1, _ => exact h .Z
  | 2, _ => exact h .I
  | 3, _ => exact h .D
  | 4, _ => exact h .s4
  | 5, _ => exact h .s5
  | 6, _ => exact h .V
  | 7, _ => exact h .N

/-- Writing a status bit writes that bit alone (00_scope.md R14). -/
@[simp] theorem statusBit_setStatusBit (status : Byte) (b c : StatusBit) (on : Bool) :
    statusBit (setStatusBit status b on) c = if c = b then on else statusBit status c := by
  cases on <;> cases b <;> cases c <;> simp [statusBit, setStatusBit, StatusBit.index]

/-- What `SetZN(v)` does to every bit (40_engine.md R57). -/
theorem statusBit_setZN (status v : Byte) (b : StatusBit) :
    statusBit (setZN status v) b =
      match b with
      | .Z => v == 0x00
      | .N => v.getLsbD 7
      | .V | .s5 | .s4 | .D | .I | .C => statusBit status b := by
  cases b <;> simp [setZN, setNegative, setZero]

end Sys2Proof.Machine
end

