-- ==== Sys2Proof/Laws/Memory.lean ====
section
/-! SUPPORT. The program's laws: what its canonical form says about reading, and that the one
operation that makes a program gives that form. -/

namespace Sys2Proof.Machine.Memory

theorem length_ofBytesFrom (start : Nat) (bytes : List Byte) :
    (ofBytesFrom start bytes).length = bytes.length := by
  induction bytes generalizing start with
  | nil => rfl
  | cons b bs ih => simp [ofBytesFrom, ih]

@[simp] theorem length_ofBytes (bytes : List Byte) : (ofBytes bytes).length = bytes.length :=
  length_ofBytesFrom 0 bytes

theorem wfFrom_ofBytesFrom (start : Nat) (bytes : List Byte) :
    wfFrom start (ofBytesFrom start bytes) = true := by
  induction bytes generalizing start with
  | nil => rfl
  | cons b bs ih => simp [ofBytesFrom, wfFrom, ih]

/-- Laying out a byte sequence gives a program in canonical form. -/
@[simp] theorem wf_ofBytes (bytes : List Byte) : (ofBytes bytes).wf = true :=
  wfFrom_ofBytesFrom 0 bytes

/-- In canonical form the byte at the `i`-th listed address is the `i`-th listed byte, and every other
address holds nothing. -/
theorem read_of_wfFrom {start : Nat} {m : Memory} (h : wfFrom start m = true) (addr : Nat) :
    m.read addr = if addr < start then none else (m.map Prod.snd)[addr - start]? := by
  induction m generalizing start with
  | nil => simp [read]
  | cons c rest ih =>
    obtain ⟨a, b⟩ := c
    simp only [wfFrom, Bool.and_eq_true, beq_iff_eq] at h
    obtain ⟨rfl, h⟩ := h
    rw [read, ih h]
    rcases Nat.lt_trichotomy addr a with lt | rfl | gt
    · rw [if_neg (by omega), if_pos (by omega), if_pos lt]
    · simp
    · rw [if_neg (by omega), if_neg (by omega), if_neg (by omega), List.map_cons,
        show addr - a = (addr - (a + 1)) + 1 by omega, List.getElem?_cons_succ]

/-- Reading a canonical program is indexing its bytes (20_memory.md R30). -/
theorem read_of_wf {m : Memory} (h : m.wf = true) (addr : Nat) :
    m.read addr = (m.map Prod.snd)[addr]? := by
  simpa using read_of_wfFrom h addr

/-- Exactly the addresses at L and above hold nothing (20_memory.md R30). -/
theorem read_eq_none_iff {m : Memory} (h : m.wf = true) (addr : Nat) :
    m.read addr = none ↔ m.length ≤ addr := by
  simp [read_of_wf h]

/-- Below L there is a byte (00_scope.md R15). -/
theorem exists_read {m : Memory} (h : m.wf = true) {addr : Nat} (lt : addr < m.length) :
    ∃ b, m.read addr = some b := by
  rw [← Option.isSome_iff_exists, Option.isSome_iff_ne_none, ne_eq, read_eq_none_iff h]
  omega

/-- A byte that is read lies below L. -/
theorem lt_length_of_read {m : Memory} (h : m.wf = true) {addr : Nat} {b : Byte}
    (hb : m.read addr = some b) : addr < m.length := by
  by_contra hge
  rw [(read_eq_none_iff h addr).2 (by omega)] at hb
  cases hb

theorem map_snd_ofBytesFrom (start : Nat) (bytes : List Byte) :
    (ofBytesFrom start bytes).map Prod.snd = bytes := by
  induction bytes generalizing start with
  | nil => rfl
  | cons b bs ih => simp [ofBytesFrom, ih]

/-- Address i of a laid-out byte sequence holds its i-th byte (20_memory.md R30). -/
@[simp] theorem read_ofBytes (bytes : List Byte) (addr : Nat) :
    (ofBytes bytes).read addr = bytes[addr]? := by
  rw [read_of_wf (wf_ofBytes bytes), ofBytes, map_snd_ofBytesFrom]

theorem ofBytesFrom_map_snd {start : Nat} {m : Memory} (h : wfFrom start m = true) :
    ofBytesFrom start (m.map Prod.snd) = m := by
  induction m generalizing start with
  | nil => rfl
  | cons c rest ih =>
    obtain ⟨a, b⟩ := c
    simp only [wfFrom, Bool.and_eq_true, beq_iff_eq] at h
    obtain ⟨rfl, h⟩ := h
    simp [ofBytesFrom, ih h]

/-- A canonical program is the layout of its bytes. -/
theorem ofBytes_map_snd {m : Memory} (h : m.wf = true) : ofBytes (m.map Prod.snd) = m :=
  ofBytesFrom_map_snd h

end Sys2Proof.Machine.Memory
end

