-- ==== Sys2Proof/Laws/State.lean ====
section
/-! SUPPORT. One lemma for each field of the state and each update of it, so that no proof unfolds a
record update. -/

namespace Sys2Proof.Machine

variable (s : State)

/-! `setA` -/

@[simp] theorem State.setA_A (v : Byte) : (s.setA v).A = v := rfl
@[simp] theorem State.setA_X (v : Byte) : (s.setA v).X = s.X := rfl
@[simp] theorem State.setA_status (v : Byte) : (s.setA v).status = s.status := rfl
@[simp] theorem State.setA_PC (v : Byte) : (s.setA v).PC = s.PC := rfl
@[simp] theorem State.setA_run (v : Byte) : (s.setA v).run = s.run := rfl
@[simp] theorem State.setA_program (v : Byte) : (s.setA v).program = s.program := rfl
@[simp] theorem State.setA_L (v : Byte) : (s.setA v).L = s.L := rfl

/-! `setX` -/

@[simp] theorem State.setX_A (v : Byte) : (s.setX v).A = s.A := rfl
@[simp] theorem State.setX_X (v : Byte) : (s.setX v).X = v := rfl
@[simp] theorem State.setX_status (v : Byte) : (s.setX v).status = s.status := rfl
@[simp] theorem State.setX_PC (v : Byte) : (s.setX v).PC = s.PC := rfl
@[simp] theorem State.setX_run (v : Byte) : (s.setX v).run = s.run := rfl
@[simp] theorem State.setX_program (v : Byte) : (s.setX v).program = s.program := rfl
@[simp] theorem State.setX_L (v : Byte) : (s.setX v).L = s.L := rfl

/-! `setStatus` -/

@[simp] theorem State.setStatus_A (v : Byte) : (s.setStatus v).A = s.A := rfl
@[simp] theorem State.setStatus_X (v : Byte) : (s.setStatus v).X = s.X := rfl
@[simp] theorem State.setStatus_status (v : Byte) : (s.setStatus v).status = v := rfl
@[simp] theorem State.setStatus_PC (v : Byte) : (s.setStatus v).PC = s.PC := rfl
@[simp] theorem State.setStatus_run (v : Byte) : (s.setStatus v).run = s.run := rfl
@[simp] theorem State.setStatus_program (v : Byte) : (s.setStatus v).program = s.program := rfl
@[simp] theorem State.setStatus_L (v : Byte) : (s.setStatus v).L = s.L := rfl

/-! `setPC` -/

@[simp] theorem State.setPC_A (n : Nat) : (s.setPC n).A = s.A := rfl
@[simp] theorem State.setPC_X (n : Nat) : (s.setPC n).X = s.X := rfl
@[simp] theorem State.setPC_status (n : Nat) : (s.setPC n).status = s.status := rfl
@[simp] theorem State.setPC_PC (n : Nat) : (s.setPC n).PC = n := rfl
@[simp] theorem State.setPC_run (n : Nat) : (s.setPC n).run = s.run := rfl
@[simp] theorem State.setPC_program (n : Nat) : (s.setPC n).program = s.program := rfl
@[simp] theorem State.setPC_L (n : Nat) : (s.setPC n).L = s.L := rfl

/-! `setRun` -/

@[simp] theorem State.setRun_A (r : RunState) : (s.setRun r).A = s.A := rfl
@[simp] theorem State.setRun_X (r : RunState) : (s.setRun r).X = s.X := rfl
@[simp] theorem State.setRun_status (r : RunState) : (s.setRun r).status = s.status := rfl
@[simp] theorem State.setRun_PC (r : RunState) : (s.setRun r).PC = s.PC := rfl
@[simp] theorem State.setRun_run (r : RunState) : (s.setRun r).run = r := rfl
@[simp] theorem State.setRun_program (r : RunState) : (s.setRun r).program = s.program := rfl
@[simp] theorem State.setRun_L (r : RunState) : (s.setRun r).L = s.L := rfl

/-! `State.setZN` writes the status register alone. -/

@[simp] theorem State.setZN_A (v : Byte) : (s.setZN v).A = s.A := rfl
@[simp] theorem State.setZN_X (v : Byte) : (s.setZN v).X = s.X := rfl
@[simp] theorem State.setZN_status (v : Byte) : (s.setZN v).status = Machine.setZN s.status v := rfl
@[simp] theorem State.setZN_PC (v : Byte) : (s.setZN v).PC = s.PC := rfl
@[simp] theorem State.setZN_run (v : Byte) : (s.setZN v).run = s.run := rfl
@[simp] theorem State.setZN_program (v : Byte) : (s.setZN v).program = s.program := rfl

/-! `State.advanceOverOperand` writes PC alone. -/

@[simp] theorem State.advanceOverOperand_A : s.advanceOverOperand.A = s.A := rfl
@[simp] theorem State.advanceOverOperand_X : s.advanceOverOperand.X = s.X := rfl
@[simp] theorem State.advanceOverOperand_status : s.advanceOverOperand.status = s.status := rfl
@[simp] theorem State.advanceOverOperand_PC : s.advanceOverOperand.PC = s.PC + 1 := rfl
@[simp] theorem State.advanceOverOperand_run : s.advanceOverOperand.run = s.run := rfl
@[simp] theorem State.advanceOverOperand_program : s.advanceOverOperand.program = s.program := rfl

/-! Run entry. -/

@[simp] theorem State.enter_A (prog : List Byte) : (s.enter prog).A = s.A := rfl
@[simp] theorem State.enter_X (prog : List Byte) : (s.enter prog).X = s.X := rfl
@[simp] theorem State.enter_status (prog : List Byte) : (s.enter prog).status = s.status := rfl
@[simp] theorem State.enter_PC (prog : List Byte) : (s.enter prog).PC = 0 := rfl
@[simp] theorem State.enter_run (prog : List Byte) : (s.enter prog).run = .running := rfl
@[simp] theorem State.enter_program (prog : List Byte) : (s.enter prog).program = Memory.ofBytes prog := rfl

end Sys2Proof.Machine
end

