-- ==== Sys2Proof/Laws/Ops.lean ====
section
/-! SUPPORT. What each shared operation can do, said once. -/

namespace Sys2Proof.Machine

/-- A running state's PC moves on by one, and no other field changes (40_engine.md R59). -/
theorem State.postIncrement_of_running {s : State} (h : s.run = .running) :
    s.postIncrement = s.setPC (s.PC + 1) := by
  simp [State.postIncrement, h]

/-- A state that is not running keeps every field (40_engine.md R59). -/
theorem State.postIncrement_of_ne_running {s : State} (h : s.run ≠ .running) :
    s.postIncrement = s := by
  unfold State.postIncrement
  split <;> simp_all

@[simp] theorem State.postIncrement_A (s : State) : s.postIncrement.A = s.A := by
  unfold State.postIncrement; split <;> rfl
@[simp] theorem State.postIncrement_X (s : State) : s.postIncrement.X = s.X := by
  unfold State.postIncrement; split <;> rfl
@[simp] theorem State.postIncrement_status (s : State) : s.postIncrement.status = s.status := by
  unfold State.postIncrement; split <;> rfl
@[simp] theorem State.postIncrement_run (s : State) : s.postIncrement.run = s.run := by
  unfold State.postIncrement; split <;> rfl
@[simp] theorem State.postIncrement_program (s : State) : s.postIncrement.program = s.program := by
  unfold State.postIncrement; split <;> rfl

/-- A rejected fetch writes `run` alone, and what it writes is no Running (60_exceptions.md R90). -/
theorem fetchRejected_eq (why : DecodeReject) (s : State) :
    fetchRejected why s = s.setRun (match why with
      | .noOpcode => .endOfProgram
      | .unimplemented op => .faulted .unimplementedOpcode op s.PC
      | .noOperand op => .faulted .operandOutOfBounds op s.PC) := by
  cases why <;> rfl

/-- Nothing is fetched where the program holds nothing at PC (40_engine.md R53). -/
theorem fetchBytes_of_none {s : State} (h : s.program.read s.PC = none) : fetchBytes s = [] := by
  simp [fetchBytes, opcodeAddress, h]

/-- 0xA9 fetches the byte at PC + 1 too, where there is one (41_load.md R70). -/
theorem fetchBytes_of_lda {s : State} (h : s.program.read s.PC = some opcodeLda) :
    fetchBytes s = opcodeLda :: (s.program.read (s.PC + 1)).toList := by
  simp [fetchBytes, opcodeAddress, operandAddress, h, opcodeLength]

/-- Every other opcode is fetched alone (30_encoding.md R44, R45). -/
theorem fetchBytes_of_ne_lda {s : State} {op : Byte} (h : s.program.read s.PC = some op)
    (hne : op ≠ opcodeLda) : fetchBytes s = [op] := by
  have hlen : opcodeLength op ≠ some 2 := by
    unfold opcodeLength; rw [if_neg hne]; split <;> simp
  simp [fetchBytes, opcodeAddress, h, hlen]

end Sys2Proof.Machine
end

