-- ==== Sys2Proof/Laws/PerInstr.lean ====
section
/-! SUPPORT. The per-instruction families: facts about every instruction as syntax, one lemma for each
constructor. -/

namespace Sys2Proof.Laws

/-- An instruction's encoding begins with its opcode and has its length (30_encoding.md R41, R42,
R44). -/
def EncodedShape.Statement (i : Instr) : Prop :=
  (encode i).head? = some i.opcode ∧ (encode i).length = i.length ∧ i.opcode ∈ definedOpcodes

theorem EncodedShape.ldaImm (imm : Byte) : EncodedShape.Statement (.ldaImm imm) := by
  simp [Statement, encode, Instr.opcode, Instr.length, definedOpcodes]

theorem EncodedShape.brk : EncodedShape.Statement .brk := by
  simp [Statement, encode, Instr.opcode, Instr.length, definedOpcodes]

theorem EncodedShape.tax : EncodedShape.Statement .tax := by
  simp [Statement, encode, Instr.opcode, Instr.length, definedOpcodes]

theorem EncodedShape.inx : EncodedShape.Statement .inx := by
  simp [Statement, encode, Instr.opcode, Instr.length, definedOpcodes]

end Sys2Proof.Laws
end

