-- ==== Sys2Proof/Laws/Step.lean ====
section
/-! SUPPORT. What a meaning and a step can do, said once. -/

namespace Sys2Proof.Machine

/-- No meaning ends in a fault or a refusal. -/
theorem exec_answers_next (i : Instr) (s : State) : ∃ t, exec i s = .next t := by
  cases i <;> exact ⟨_, rfl⟩

/-- Only a running state has a next state (40_engine.md R52). -/
theorem run_of_step_next {s t : State} (h : step s = .next t) : s.run = .running := by
  unfold step at h
  split at h <;> first | assumption | cases h

/-- A running step is the dispatch on the fetched bytes (40_engine.md R58, R62). -/
theorem step_of_running {s : State} (h : s.run = .running) :
    step s = match decode (fetchBytes s) with
      | .instr i _ => exec i s
      | .reject why => .next (fetchRejected why s) := by
  obtain ⟨_, _, _, _, run, _⟩ := s
  cases (show run = .running from h)
  rfl

/-- A state that is not running has no step (40_engine.md R66, log 5). -/
theorem step_of_ne_running {s : State} (h : s.run ≠ .running) : step s = .fault (.noStep s.run) := by
  unfold step
  split <;> simp_all

@[simp] theorem steps_zero (s : State) : steps 0 s = .next s := rfl

theorem steps_succ (k : Nat) (s : State) :
    steps (k + 1) s = match step s with
      | .next t => steps k t
      | .fault r => .fault r
      | .refused r => .refused r := by
  simp only [steps, Host.Core.run]
  generalize h : step s = o
  have h' : Sys2Proof.core.step s = o := h
  rw [h']
  cases o <;> rfl

/-- A run of `k + 1` steps is a step and a run of `k`. -/
theorem steps_succ_next {k : Nat} {s t : State} :
    steps (k + 1) s = .next t ↔ ∃ u, step s = .next u ∧ steps k u = .next t := by
  rw [steps_succ]
  cases step s <;> simp

/-- What every step keeps of a running state's successor, every run of steps keeps. -/
theorem steps_induction {P : State → Prop} (hstep : ∀ u v, P u → step u = .next v → P v)
    {k : Nat} {s t : State} (hs : P s) (h : steps k s = .next t) : P t := by
  induction k generalizing s with
  | zero => cases h; exact hs
  | succ k ih =>
    obtain ⟨u, hu, ht⟩ := steps_succ_next.1 h
    exact ih (hstep s u hs hu) ht

/-- What a running step can do, guards included: end the run at a missing opcode, run one of the four
instructions that stands at PC, or fault (40_engine.md R62). -/
theorem step_cases {s : State} (h : s.run = .running) :
    (s.program.read s.PC = none ∧ step s = .next s.stopEndOfProgram) ∨
    (∃ imm, s.program.read s.PC = some opcodeLda ∧ s.program.read (s.PC + 1) = some imm ∧
      step s = exec (.ldaImm imm) s) ∨
    (s.program.read s.PC = some opcodeLda ∧ s.program.read (s.PC + 1) = none ∧
      step s = .next (s.raiseFault .operandOutOfBounds opcodeLda)) ∨
    (s.program.read s.PC = some opcodeBrk ∧ step s = exec .brk s) ∨
    (s.program.read s.PC = some opcodeTax ∧ step s = exec .tax s) ∨
    (s.program.read s.PC = some opcodeInx ∧ step s = exec .inx s) ∨
    (∃ op, s.program.read s.PC = some op ∧ op ∉ definedOpcodes ∧
      step s = .next (s.raiseFault .unimplementedOpcode op)) := by
  rw [step_of_running h]
  cases hop : s.program.read s.PC with
  | none => rw [fetchBytes_of_none hop]; exact .inl ⟨rfl, rfl⟩
  | some op =>
    right
    by_cases hlda : op = opcodeLda
    · subst hlda
      rw [fetchBytes_of_lda hop]
      cases s.program.read (s.PC + 1) with
      | none => exact .inr (.inl ⟨rfl, rfl, rfl⟩)
      | some imm => exact .inl ⟨imm, rfl, rfl, rfl⟩
    rw [fetchBytes_of_ne_lda hop hlda]
    right; right
    by_cases hbrk : op = opcodeBrk
    · subst hbrk; exact .inl ⟨rfl, rfl⟩
    by_cases htax : op = opcodeTax
    · subst htax; exact .inr (.inl ⟨rfl, rfl⟩)
    by_cases hinx : op = opcodeInx
    · subst hinx; exact .inr (.inr (.inl ⟨rfl, rfl⟩))
    have hdec : decode [op] = .reject (.unimplemented op) := by
      simp [decode, hlda, hbrk, htax, hinx]
    exact .inr (.inr (.inr ⟨op, rfl, by simp [definedOpcodes, hlda, hbrk, htax, hinx], by rw [hdec]; rfl⟩))

/-- No meaning writes the program (20_memory.md R31). -/
theorem program_of_exec {i : Instr} {s t : State} (h : exec i s = .next t) :
    t.program = s.program := by
  cases i <;> cases h
  · simp
  · rfl
  · simp
  · simp

/-! ### The run loop -/

/-- Terminal is not running. -/
theorem RunState.isTerminal_iff (r : RunState) : r.isTerminal = true ↔ r ≠ .running := by
  cases r <;> simp [RunState.isTerminal]

/-- The loop answers a terminal state as it is (40_engine.md R61). -/
theorem runLoop_of_terminal {s : State} (h : s.run.isTerminal = true) (fuel : Nat) :
    runLoop fuel s = .next s := by
  cases fuel with
  | zero => rfl
  | succ fuel =>
    simp only [runLoop]
    cases hrun : s.run with
    | running => rw [hrun] at h; cases h
    | halted => rfl
    | endOfProgram => rfl
    | faulted _ _ _ => rfl

/-- While a step answers a next state, the loop goes on from it (40_engine.md R61). -/
theorem runLoop_of_step {s t : State} (h : step s = .next t) (fuel : Nat) :
    runLoop (fuel + 1) s = runLoop fuel t := by
  simp only [runLoop, run_of_step_next h, h]

end Sys2Proof.Machine
end

