-- ==== Sys2Proof/Tests/Slice0.lean ====
section
/-! SUPPORT. Tests on fixed values, their expected results taken from the spec's tables and vectors
(95_test_vectors.md), and for every statement with hypotheses a witness that meets them together. -/

namespace Sys2Proof.Tests

open Sys2Proof.Machine

/-- A start state with pre-set registers and a program, PC anywhere. -/
def demo (a x status : Byte) (pc : Nat) (bytes : List Byte) : State :=
  { State.reset with A := a, X := x, status := status, PC := pc, program := Memory.ofBytes bytes }

/-- The next state, where there is one. -/
def nextState (o : Host.Outcome State Fault Refusal) : Option State :=
  match o with
  | .next t => some t
  | .fault _ => none
  | .refused _ => none

/-! ### WellFormed: an ill-formed term for each check. An ill-formed instruction does not exist, because
the type of the immediate is the check. -/

-- 00_scope.md R12: 8 bits do not hold every index of 256 bytes and the end
theorem test_params_refuses_narrow_pc : Config.Params.admissible ⟨256, 8⟩ = false := by decide
theorem test_params_accepts_wide_pc : Config.Params.admissible ⟨255, 8⟩ = true := by decide
-- 20_memory.md R30: L at the limit and one above
theorem test_program_too_long : Config.Params.acceptsProgram ⟨2, 8⟩ [0xE8, 0xE8, 0x00] = false := by
  decide
theorem test_program_at_limit : Config.Params.acceptsProgram ⟨3, 8⟩ [0xE8, 0xE8, 0x00] = true := by
  decide
theorem test_every_instr_wellFormed : ∀ i ∈ [Instr.ldaImm 0xFF, .brk, .tax, .inx], i.wellFormed = true := by
  decide
-- log 18: a gap, a repeat and a fall in the addresses
theorem test_memory_wf_refuses : Memory.wf [(0, 0xE8), (2, 0x00)] = false ∧
    Memory.wf [(0, 0xE8), (0, 0x00)] = false ∧ Memory.wf [(1, 0xE8), (0, 0x00)] = false := by decide

/-! ### Decoding: the words of 30_encoding.md R40 to R42, bit by bit -/

theorem test_decode_lda : decode [0b10101001#8, 0b11000000#8, 0x00] = .instr (.ldaImm 0xC0) [0x00] := by
  decide
theorem test_decode_brk : decode [0b00000000#8] = .instr .brk [] := by decide
theorem test_decode_tax : decode [0b10101010#8] = .instr .tax [] := by decide
theorem test_decode_inx : decode [0b11101000#8] = .instr .inx [] := by decide
-- 41_load.md R70: no operand byte
theorem test_decode_lda_alone : decode [0xA9] = .reject (.noOperand 0xA9) := by decide
-- 95_test_vectors.md E4 and E7
theorem test_decode_undefined : decode [0xEA] = .reject (.unimplemented 0xEA) ∧
    decode [0x69, 0x00] = .reject (.unimplemented 0x69) := by decide
theorem test_table_words : decodeTableWord 16 0x05A9 = some (.ldaImm 0x05) ∧
    decodeTableWord 8 0xFFA9 = some (.ldaImm 0x00) ∧ decodeTableWord 8 0x00 = some .brk ∧
    decodeTableWord 8 0xAA = some .tax ∧ decodeTableWord 8 0xE8 = some .inx ∧
    decodeTableWord 8 0xFF = none := by decide
theorem test_encode_listing : assemble [.ldaImm 0xFE, .tax, .inx, .inx, .brk] =
    [0xA9, 0xFE, 0xAA, 0xE8, 0xE8, 0x00] := by decide

/-! ### One step of each instruction (95_test_vectors.md) -/

-- L1: A9 01 with A = 12, status = FF
theorem test_lda_clears_flags : nextState (step (demo 0x12 0x00 0xFF 0 [0xA9, 0x01, 0x00])) =
    some (demo 0x01 0x00 0x7D 2 [0xA9, 0x01, 0x00]) := by decide
-- L5: A9 00 with status = 7D
theorem test_lda_zero_sets_z : nextState (step (demo 0x00 0x00 0x7D 0 [0xA9, 0x00, 0x00])) =
    some (demo 0x00 0x00 0x7F 2 [0xA9, 0x00, 0x00]) := by decide
-- B2: 00 with A = 12, X = 34, status = C3
theorem test_brk_keeps_all : nextState (step (demo 0x12 0x34 0xC3 0 [0x00])) =
    some { demo 0x12 0x34 0xC3 0 [0x00] with run := .halted } := by decide
-- T1: AA with A = 80
theorem test_tax_flags_from_old_a : nextState (step (demo 0x80 0x00 0x00 0 [0xAA, 0x00])) =
    some (demo 0x00 0x80 0x80 1 [0xAA, 0x00]) := by decide
-- T5: AA with A = C0, status = 01
theorem test_tax_keeps_c : nextState (step (demo 0xC0 0x00 0x01 0 [0xAA, 0x00])) =
    some (demo 0x00 0xC0 0x81 1 [0xAA, 0x00]) := by decide
-- I5: E8 with X = FF, status = 40
theorem test_inx_wraps_keeps_v : nextState (step (demo 0x00 0xFF 0x40 0 [0xE8, 0x00])) =
    some (demo 0x00 0x00 0x42 1 [0xE8, 0x00]) := by decide
-- I6: E8 with A = 9A, X = 80
theorem test_inx_keeps_a : nextState (step (demo 0x9A 0x80 0x00 0 [0xE8, 0x00])) =
    some (demo 0x9A 0x81 0x80 1 [0xE8, 0x00]) := by decide
-- E1: the empty program
theorem test_empty_program : nextState (step State.reset) =
    some { State.reset with run := .endOfProgram } := by decide
-- E2: FF
theorem test_undefined_faults : nextState (step (demo 0x00 0x00 0x00 0 [0xFF])) =
    some { demo 0x00 0x00 0x00 0 [0xFF] with run := .faulted .unimplementedOpcode 0xFF 0 } := by decide
-- L8, its second step: A9 as the last byte
theorem test_lda_last_faults : nextState (step (demo 0x05 0x00 0x00 2 [0xA9, 0x05, 0xA9])) =
    some { demo 0x05 0x00 0x00 2 [0xA9, 0x05, 0xA9] with
      run := .faulted .operandOutOfBounds 0xA9 2 } := by decide
-- E8: the start state's PC is ignored by run entry
theorem test_entry_ignores_pc : ((demo 0x00 0x07 0x3C 5 []).enter [0xE8, 0x00]) =
    demo 0x00 0x07 0x3C 0 [0xE8, 0x00] := by decide
-- 60_exceptions.md R80
theorem test_cause_codes : FaultReason.unimplementedOpcode.code = 1 ∧
    FaultReason.operandOutOfBounds.code = 2 := by decide
-- placing one table word after reset (log 2)
theorem test_fetch_word : (nextState (step (State.reset.withFetchWord 16 0x80A9))).map State.output =
      some ⟨0x80, 0x00, 0x80, 2, .running⟩ ∧
    (nextState (step (State.reset.withFetchWord 8 0x00))).map State.output =
      some ⟨0x00, 0x00, 0x00, 0, .halted⟩ ∧
    (nextState (step (State.reset.withFetchWord 8 0xAA))).map State.output =
      some ⟨0x00, 0x00, 0x02, 1, .running⟩ ∧
    (nextState (step (State.reset.withFetchWord 8 0xE8))).map State.output =
      some ⟨0x00, 0x01, 0x00, 1, .running⟩ := by decide

/-! ### Witnesses: each statement's hypotheses met by concrete values -/

theorem witness_RunEntryTakesOnlyAXAndStatus :
    let start := demo 0x12 0x34 0xC3 5 [0x00]
    let other := { demo 0x12 0x34 0xC3 0 [0xE8] with run := .halted }
    start.A = other.A ∧ start.X = other.X ∧ start.status = other.status ∧ start ≠ other := by decide

theorem witness_OpcodeMapDecodes : ∀ op ∈ [0x01#8, 0xA8#8, 0xAB#8, 0xE7#8, 0xE9#8, 0xFF#8],
    op ≠ 0b10101001#8 ∧ op ≠ 0b00000000#8 ∧ op ≠ 0b10101010#8 ∧ op ≠ 0b11101000#8 := by decide

theorem witness_OpcodeByteGivesTheLength :
    decode (0xA9 :: [0xFF, 0xAA]) = .instr (.ldaImm 0xFF) [0xAA] ∧
    ((0x01#8 : Byte) ≠ 0xA9 ∧ (0x01#8 : Byte) ≠ 0x00 ∧ (0x01#8 : Byte) ≠ 0xAA ∧
      (0x01#8 : Byte) ≠ 0xE8) := by decide

theorem witness_AssembledListingsReadBack :
    (assemble [.ldaImm 0x00, .brk]).length ≤ 3 ∧
    disassemble 2 [0xA9, 0x00, 0x00] = some [.ldaImm 0x00, .brk] := by decide

theorem witness_StepRunsTheInstructionAtPC :
    let s := demo 0x00 0x00 0x00 1 [0xE8, 0xA9, 0x05]
    s.run = .running ∧ s.holdsAt s.PC (encode (.ldaImm 0x05)) ∧
      decode (fetchBytes s) = .instr (.ldaImm 0x05) [] := by
  refine ⟨rfl, fun k b h => ?_, by decide⟩
  match k, h with
  | 0, h => cases h; rfl
  | 1, h => cases h; rfl

theorem witness_FetchPastTheEndStops :
    let s := demo 0x00 0x00 0x00 2 [0xA9, 0x05]
    s.run = .running ∧ s.program.wf = true ∧ s.L ≤ s.PC := by decide

theorem witness_IllegalOpcodeFaults :
    let s := demo 0x00 0x00 0x00 1 [0xE8, 0xA8]
    s.run = .running ∧ s.program.read s.PC = some 0xA8 ∧ (0xA8 : Byte) ∉ definedOpcodes := by decide

/-- One state for each row: the end, the four opcodes, 0xA9 as the last byte, an undefined opcode. -/
theorem witness_TransitionTableIsComplete :
    (∀ pc ≤ 7, let s := demo 0x01 0x02 0x00 pc [0xA9, 0x05, 0xAA, 0xE8, 0x00, 0x02, 0xA9];
      s.run = .running ∧ s.program.wf = true ∧ s.PC ≤ s.L) ∧
    (let s := demo 0x01 0x02 0x00 7 [0xA9, 0x05, 0xAA, 0xE8, 0x00, 0x02, 0xA9];
      s.PC = s.L ∧ (s.program.read 0 = some 0xA9 ∧ 0 + 1 < s.L) ∧ s.program.read 2 = some 0xAA ∧
      s.program.read 3 = some 0xE8 ∧ s.program.read 4 = some 0x00 ∧ s.program.read 5 = some 0x02 ∧
      (s.program.read 6 = some 0xA9 ∧ 6 + 1 = s.L)) := by decide

theorem witness_LoadImmediateResult : (demo 0x00 0x00 0x00 0 [0xA9, 0x80]).run = .running := by decide

theorem witness_LoadImmediateStep :
    (let s := demo 0x00 0x00 0x00 0 [0xA9, 0x00];
      s.run = .running ∧ s.program.wf = true ∧ s.program.read s.PC = some 0xA9 ∧
      s.program.read (s.PC + 1) = some 0x00) ∧
    (let s := demo 0x00 0x00 0x00 1 [0xE8, 0xA9];
      s.run = .running ∧ s.program.wf = true ∧ s.program.read s.PC = some 0xA9 ∧ s.PC + 1 = s.L) := by
  decide

theorem witness_HaltOpcodeOnlyHalts :
    (let s := demo 0x12 0x34 0xC3 0 [0x00, 0xE8];
      s.run = .running ∧ s.program.read s.PC = some 0x00) ∧
    ({ demo 0x12 0x34 0xC3 0 [0x00] with run := .halted } : State).run = .halted ∧
    (let s := demo 0x12 0x34 0xC3 0 [0xA9, 0x00];
      s.run = .running ∧ s.program.read s.PC = some 0xA9 ∧
      s.program.read (s.PC + 1) = some 0x00) := by decide

theorem witness_TransferMovesAndClears :
    let s := demo 0x55 0x37 0x00 0 [0xAA, 0xAA]
    s.run = .running ∧ s.program.read s.PC = some 0xAA ∧
    (∃ t u, exec .tax s = .next t ∧ exec .tax t = .next u) ∧
    (∃ u, exec .tax { s with X := 0xFF } = .next u) :=
  ⟨by decide, by decide, ⟨_, _, rfl, rfl⟩, ⟨_, rfl⟩⟩

theorem witness_TransferFlagsComeFromOldAccumulator :
    (∃ t, exec .tax (demo 0x80 0x00 0x00 0 [0xAA]) = .next t) ∧
    (demo 0x80 0x00 0x00 0 [0xAA]).A ≠ 0x00 ∧ (demo 0x00 0x37 0x00 0 [0xAA]).A = 0x00 :=
  ⟨⟨_, rfl⟩, by decide, by decide⟩

theorem witness_IncrementWrapsModulo256 :
    let s := demo 0x00 0xFF 0x41 0 [0xE8]
    s.run = .running ∧ s.program.read s.PC = some 0xE8 ∧ s.X = 0xFF ∧ ∃ t, exec .inx s = .next t :=
  ⟨by decide, by decide, by decide, ⟨_, rfl⟩⟩

theorem witness_SetZNIsOneFormula :
    (∃ t, exec (.ldaImm 0x80) (demo 0x00 0x00 0xFF 0 []) = .next t) ∧
    (∃ t, exec .tax (demo 0x80 0x00 0xFF 0 []) = .next t) ∧
    (∃ t, exec .inx (demo 0x00 0xFF 0x00 0 []) = .next t) ∧
    (∃ t, exec .brk (demo 0x00 0x00 0xFF 0 []) = .next t) :=
  ⟨⟨_, rfl⟩, ⟨_, rfl⟩, ⟨_, rfl⟩, ⟨_, rfl⟩⟩

theorem witness_StatusBitsAreKeptAndNeverRead :
    (nextState (steps 2 (demo 0x00 0xFF 0x3C 0 [0xE8, 0xA9, 0x80]))).isSome = true ∧
    StatusBit.C ≠ .Z ∧ StatusBit.C ≠ .N ∧ (demo 0x00 0xFF 0x3C 0 [0xE8]).run = .running := by decide

theorem witness_MeaningsChangeOnlyTheirDestinations :
    (∃ t, exec .inx (demo 0x9A 0x80 0x00 0 [0xE8]) = .next t) ∧
    ((∀ imm, Instr.inx ≠ .ldaImm imm) ∧ Instr.inx ≠ .tax ∧ Instr.inx ≠ .brk) ∧
    (∃ t, exec .brk (demo 0x9A 0x80 0xC3 0 [0x00]) = .next t) ∧
    (Instr.brk ≠ .tax ∧ Instr.brk ≠ .inx) :=
  ⟨⟨_, rfl⟩, ⟨(fun _ h => nomatch h), by decide, by decide⟩, ⟨_, rfl⟩, by decide, by decide⟩

theorem witness_ProgramIsNeverWritten :
    (nextState (steps 2 ((demo 0x00 0xFF 0x00 9 []).enter [0xE8, 0xAA, 0x00]))).isSome = true := by
  decide

theorem witness_EqualReadsMeanEqualPrograms :
    (Memory.ofBytes [0xA9, 0x00]).wf = true ∧ Memory.wf [(0, 0xA9), (1, 0x00)] = true ∧
    ∀ a, (Memory.ofBytes [0xA9, 0x00]).read a = Memory.read [(0, 0xA9), (1, 0x00)] a :=
  ⟨by decide, by decide, fun _ => rfl⟩

theorem witness_ProgramCounterAdvance :
    (∃ t, step (demo 0x00 0x00 0x00 0 [0xA9, 0x00]) = .next t ∧ t.run = .running) ∧
    (∃ t, step (demo 0x00 0x00 0x00 0 [0x00]) = .next t ∧ t.run ≠ .running) :=
  ⟨⟨_, rfl, by decide⟩, ⟨_, rfl, by decide⟩⟩

theorem witness_FaultWritesOnlyRun :
    (∃ t, step (demo 0x05 0x00 0x00 2 [0xA9, 0x05, 0xA9]) = .next t ∧
      t.run = .faulted .operandOutOfBounds 0xA9 2) ∧
    (∃ t, step (demo 0x01 0x00 0x00 2 [0xA9, 0x01, 0x69]) = .next t ∧
      t.run = .faulted .unimplementedOpcode 0x69 2) :=
  ⟨⟨_, rfl, by decide⟩, ⟨_, rfl, by decide⟩⟩

/-- The undefined opcode is the last byte, where the two faults' conditions meet (E7). -/
theorem witness_FaultsAreRaisedExactlyWhen :
    (demo 0x01 0x00 0x00 2 [0xA9, 0x01, 0x69]).program.wf = true ∧
    ∃ t, step (demo 0x01 0x00 0x00 2 [0xA9, 0x01, 0x69]) = .next t :=
  ⟨by decide, ⟨_, rfl⟩⟩

theorem witness_FirstCheckThatHoldsDecides :
    (let s := demo 0x01 0x00 0x00 3 [0xA9, 0x01, 0x69];
      s.run = .running ∧ s.program.wf = true ∧ s.L ≤ s.PC) ∧
    (let s := demo 0x01 0x00 0x00 2 [0xA9, 0x01, 0x69];
      s.run = .running ∧ s.program.wf = true ∧ s.program.read s.PC = some 0x69) := by decide

theorem witness_CleanHaltExactlyByOpcodeZero :
    ∃ t, step (demo 0x00 0x01 0x00 1 [0xE8, 0x00, 0xFF]) = .next t ∧ t.haltedCleanly = true :=
  ⟨_, rfl, by decide⟩

theorem witness_EndOfProgramExactlyPastTheEnd :
    (demo 0x00 0x02 0x00 2 [0xE8, 0xE8]).program.wf = true ∧
    ∃ t, step (demo 0x00 0x02 0x00 2 [0xE8, 0xE8]) = .next t ∧ t.run = .endOfProgram :=
  ⟨by decide, _, rfl, by decide⟩

theorem witness_TerminalStatesAreAbsorbing :
    ∀ r ∈ [RunState.halted, .endOfProgram, .faulted .unimplementedOpcode 0xFF 0],
      ({ State.reset with run := r } : State).run.isTerminal = true := by decide

theorem witness_FaultIsSeenAtTheEnd :
    Config.Params.acceptsProgram ⟨3, 8⟩ [0xE8, 0x02, 0x00] = true ∧
    ∃ u, steps 2 (State.reset.enter [0xE8, 0x02, 0x00]) = .next u ∧ u.noFault = false :=
  ⟨by decide, _, rfl, by decide⟩

theorem witness_EntryPointIsTheWhileLoop :
    Config.Params.acceptsProgram ⟨2, 8⟩ [0xE8, 0x00] = true := by decide

theorem witness_EveryRunEndsWithinLengthPlusOneSteps :
    (demo 0x00 0x00 0x00 0 [0xA9, 0x00]).Inv ∧
    ∃ t, step (demo 0x00 0x00 0x00 0 [0xA9, 0x00]) = .next t ∧ t.run = .running :=
  ⟨by decide, _, rfl, by decide⟩

theorem witness_EntryPointAnswersOneOfThreeOutcomes :
    Config.Params.acceptsProgram ⟨2, 8⟩ [0xE8, 0x00] = true ∧
    Config.Params.acceptsProgram ⟨1, 8⟩ [0xE8, 0x00] = false := by decide

/-- L at the limit and the narrowest admissible width. -/
theorem witness_ProgramCounterStaysWithinTheProgram :
    Config.Params.admissible ⟨2, 2⟩ = true ∧
    Config.Params.acceptsProgram ⟨2, 2⟩ [0xA9, 0x00] = true ∧
    ∃ t, steps 1 (State.reset.enter [0xA9, 0x00]) = .next t ∧
      t.PC = [0xA9#8, 0x00#8].length :=
  ⟨by decide, by decide, _, rfl, by decide⟩

theorem witness_EveryStepKeepsTheInvariant :
    (demo 0x05 0x00 0x00 2 [0xA9, 0x05, 0xA9]).Inv ∧
    ∃ t, step (demo 0x05 0x00 0x00 2 [0xA9, 0x05, 0xA9]) = .next t :=
  ⟨by decide, _, rfl⟩

end Sys2Proof.Tests
end

/-! O20. Every step rewrites `status` by a function that is fixed by the rest of the state
(10_state.md R24): it is the identity or `SetZN` of a value that does not depend on `status`. -/
section
namespace Sys2Proof.Machine

/-- The rewrites of `status` that CORE performs: none, or `SetZN(v)` (40_engine.md R57). -/
inductive StatusUpdate : (Byte → Byte) → Prop
  | keep : StatusUpdate id
  | writeZN (v : Byte) : StatusUpdate (setZN · v)

/-- The bits other than Z and N survive every rewrite of `status`. -/
theorem StatusUpdate.statusBit_eq {f : Byte → Byte} (hf : StatusUpdate f) (status : Byte)
    {b : StatusBit} (hZ : b ≠ .Z) (hN : b ≠ .N) :
    statusBit (f status) b = statusBit status b := by
  cases hf with
  | keep => rfl
  | writeZN v =>
    rw [statusBit_setZN]
    cases b with
    | Z => exact absurd rfl hZ
    | N => exact absurd rfl hN
    | _ => rfl

/-- A rewrite keeps both of two status values, or gives both the same Z and N. -/
theorem StatusUpdate.keeps_or_ZN_eq {f : Byte → Byte} (hf : StatusUpdate f) (x y : Byte) :
    (f x = x ∧ f y = y) ∨
      (statusBit (f x) .Z = statusBit (f y) .Z ∧ statusBit (f x) .N = statusBit (f y) .N) := by
  cases hf with
  | keep => exact .inl ⟨rfl, rfl⟩
  | writeZN v => right; simp [statusBit_setZN]

/-- The post-increment does not read `status`. -/
theorem State.postIncrement_setStatus (s : State) (status : Byte) :
    (s.setStatus status).postIncrement = s.postIncrement.setStatus status := by
  unfold State.postIncrement
  rw [State.setStatus_run]
  split <;> rfl

/-- A rejected fetch does not read `status`. -/
theorem fetchRejected_setStatus (why : DecodeReject) (s : State) (status : Byte) :
    fetchRejected why (s.setStatus status) = (fetchRejected why s).setStatus status := by
  cases why <;> rfl

/-- The fetch does not read `status`. -/
theorem fetchBytes_setStatus (s : State) (status : Byte) :
    fetchBytes (s.setStatus status) = fetchBytes s := rfl

/-- A meaning's next state is, but for `status`, fixed by the state without `status`, and so is the
way `status` is rewritten. -/
theorem exec_setStatus (i : Instr) (s : State) :
    ∃ (t : State) (f : Byte → Byte), StatusUpdate f ∧
      ∀ status, exec i (s.setStatus status) = .next (t.setStatus (f status)) := by
  cases i with
  | ldaImm imm =>
    refine ⟨(s.advanceOverOperand.setA imm).postIncrement, _, .writeZN imm, fun status => ?_⟩
    rw [← State.postIncrement_setStatus]; rfl
  | brk => exact ⟨s.stopHalted, _, .keep, fun _ => rfl⟩
  | tax =>
    refine ⟨((s.setX s.A).setA 0x00).postIncrement, _, .writeZN s.A, fun status => ?_⟩
    rw [← State.postIncrement_setStatus]; rfl
  | inx =>
    refine ⟨(s.setX (increment s.X)).postIncrement, _, .writeZN (increment s.X), fun status => ?_⟩
    rw [← State.postIncrement_setStatus]; rfl

/-- A running step's next state is, but for `status`, fixed by the state without `status`, and so is
the way `status` is rewritten (10_state.md R24). -/
theorem step_setStatus {s : State} (hrun : s.run = .running) :
    ∃ (t : State) (f : Byte → Byte), StatusUpdate f ∧
      ∀ status, step (s.setStatus status) = .next (t.setStatus (f status)) := by
  have hstep (status : Byte) := step_of_running (s := s.setStatus status) hrun
  simp only [fetchBytes_setStatus, fetchRejected_setStatus] at hstep
  cases hdec : decode (fetchBytes s) with
  | instr i rest => simpa only [hstep, hdec] using exec_setStatus i s
  | reject why =>
    exact ⟨fetchRejected why s, id, .keep, fun status => by rw [hstep, hdec]; rfl⟩

/-- A step keeps the status bits other than Z and N. -/
theorem statusBit_of_step {s t : State} (h : step s = .next t) {b : StatusBit}
    (hZ : b ≠ .Z) (hN : b ≠ .N) : statusBit t.status b = statusBit s.status b := by
  obtain ⟨t₀, f, hf, hstep⟩ := step_setStatus (run_of_step_next h)
  have hnext : Host.Outcome.next t = .next (t₀.setStatus (f s.status)) :=
    h.symm.trans (hstep s.status)
  cases hnext
  exact hf.statusBit_eq s.status hZ hN

/-- Settles O20: the kept bits by induction over the steps; the two runs because a step rewrites
`status` by one and the same function in both. -/
theorem statusBitsAreKeptAndNeverRead : Obligations.StatusBitsAreKeptAndNeverRead := by
  unfold Obligations.StatusBitsAreKeptAndNeverRead
  constructor
  · intro k s t h b hZ hN
    exact steps_induction (P := fun u => statusBit u.status b = statusBit s.status b)
      (fun _ _ hu huv => (statusBit_of_step huv hZ hN).trans hu) rfl h
  · intro s status hrun
    obtain ⟨t, f, hf, hstep⟩ := step_setStatus hrun
    exact ⟨t.setStatus (f s.status), t.setStatus (f status), hstep s.status, hstep status, rfl,
      hf.keeps_or_ZN_eq s.status status⟩

end Sys2Proof.Machine
end

/-! O22. The program is the step's input and never its output: meanings and rejected fetches leave it
as data, so it is the same list of cells for the whole run (20_memory.md R31). -/
section
namespace Sys2Proof.Machine

/-- A rejected fetch leaves the program. -/
@[simp] theorem fetchRejected_program (why : DecodeReject) (s : State) :
    (fetchRejected why s).program = s.program := by
  rw [fetchRejected_eq, State.setRun_program]

/-- No step writes the program. -/
theorem program_of_step {s t : State} (h : step s = .next t) : t.program = s.program := by
  rw [step_of_running (run_of_step_next h)] at h
  cases hdec : decode (fetchBytes s) with
  | instr i rest =>
    rw [hdec] at h
    exact program_of_exec h
  | reject why =>
    rw [hdec] at h
    cases h
    exact fetchRejected_program why s

/-- No run of steps writes the program. -/
theorem program_of_steps {k : Nat} {s t : State} (h : steps k s = .next t) :
    t.program = s.program :=
  steps_induction (P := fun u => u.program = s.program)
    (fun _ _ hu huv => (program_of_step huv).trans hu) rfl h

/-- Settles O22: the program after any number of steps is the program before them, and at run entry
it is the layout of the caller's bytes. -/
theorem programIsNeverWritten : Obligations.ProgramIsNeverWritten := by
  unfold Obligations.ProgramIsNeverWritten
  constructor
  · intro k s t h
    have hprog : t.program = s.program := program_of_steps h
    exact ⟨congrArg List.length hprog, fun a => by rw [hprog]⟩
  · intro k start prog t h
    have hprog : t.program = Memory.ofBytes prog := program_of_steps h
    constructor
    · rw [State.L, hprog, Memory.length_ofBytes]
    · intro a
      rw [hprog, Memory.read_ofBytes]

end Sys2Proof.Machine
end

/-! The opcode map (30_encoding.md R40, R44, R45): the defined opcodes as a case split, what the decoder
and the length say of every other byte, and what a decoded instruction says of the bytes it came
from. -/
section
namespace Sys2Proof

/-- The opcode map's four values as a case split (30_encoding.md R40). -/
theorem mem_definedOpcodes_iff {op : Byte} :
    op ∈ definedOpcodes ↔
      op = opcodeLda ∨ op = opcodeBrk ∨ op = opcodeTax ∨ op = opcodeInx := by
  simp [definedOpcodes]

/-- A byte other than the four is no opcode. -/
theorem notMem_definedOpcodes {op : Byte} (hlda : op ≠ opcodeLda) (hbrk : op ≠ opcodeBrk)
    (htax : op ≠ opcodeTax) (hinx : op ≠ opcodeInx) : op ∉ definedOpcodes := by
  simp [mem_definedOpcodes_iff, hlda, hbrk, htax, hinx]

/-- The opcode map's four values as numbers. -/
theorem mem_definedOpcodes_iff_toNat {op : Byte} :
    op ∈ definedOpcodes ↔
      op.toNat = 0xA9 ∨ op.toNat = 0x00 ∨ op.toNat = 0xAA ∨ op.toNat = 0xE8 := by
  simp only [mem_definedOpcodes_iff, ← BitVec.toNat_inj]
  rfl

/-- An undefined opcode has no length (30_encoding.md R44). -/
theorem opcodeLength_of_notMem {op : Byte} (h : op ∉ definedOpcodes) : opcodeLength op = none := by
  have hlda : op ≠ opcodeLda := fun heq => h (mem_definedOpcodes_iff.2 (.inl heq))
  rw [opcodeLength, if_neg hlda, if_neg h]

/-- The length from the opcode byte is the instruction's length (30_encoding.md R44). -/
theorem opcodeLength_opcode (i : Instr) : opcodeLength i.opcode = some i.length := by
  cases i <;> rfl

/-- An undefined opcode is rejected whatever follows it (30_encoding.md R45). -/
theorem decode_of_notMem {op : Byte} (h : op ∉ definedOpcodes) (rest : List Byte) :
    decode (op :: rest) = .reject (.unimplemented op) := by
  simp only [mem_definedOpcodes_iff, not_or] at h
  obtain ⟨hlda, hbrk, htax, hinx⟩ := h
  simp only [decode, if_neg hlda, if_neg hbrk, if_neg htax, if_neg hinx]

/-- An instruction's bytes decode to it and leave the bytes after them (30_encoding.md R40 to R43). -/
theorem decode_encode_append (i : Instr) (rest : List Byte) :
    decode (encode i ++ rest) = .instr i rest := by
  cases i <;> rfl

/-- What is decoded is an instruction's encoding and the bytes left over (30_encoding.md R41, R42). -/
theorem eq_encode_append_of_decode {bytes : List Byte} {i : Instr} {rest : List Byte}
    (h : decode bytes = .instr i rest) : bytes = encode i ++ rest := by
  cases bytes with
  | nil => cases h
  | cons op bytes =>
    by_cases hop : op ∈ definedOpcodes
    · rcases mem_definedOpcodes_iff.1 hop with rfl | rfl | rfl | rfl
      · cases bytes with
        | nil => cases h
        | cons imm after => cases h; rfl
      · cases h; rfl
      · cases h; rfl
      · cases h; rfl
    · rw [decode_of_notMem hop] at h
      cases h

/-- The shape of Laws/PerInstr.lean for every instruction (30_encoding.md R41, R42, R44). -/
theorem encodedShape (i : Instr) : Laws.EncodedShape.Statement i := by
  cases i with
  | ldaImm imm => exact Laws.EncodedShape.ldaImm imm
  | brk => exact Laws.EncodedShape.brk
  | tax => exact Laws.EncodedShape.tax
  | inx => exact Laws.EncodedShape.inx

end Sys2Proof
end

/-! O4. A decoded byte sequence is an encoding and a rest, so the encoding's shape gives the opcode and
the number of bytes. -/
section
namespace Sys2Proof

/-- Settles O4: the length of each opcode by evaluation and by `opcodeLength_of_notMem`, the bytes that
an instruction takes by the shape of the encoding it was decoded from. -/
theorem opcodeByteGivesTheLength : Obligations.OpcodeByteGivesTheLength := by
  unfold Obligations.OpcodeByteGivesTheLength
  refine ⟨rfl, rfl, rfl, rfl, fun op hlda hbrk htax hinx =>
    opcodeLength_of_notMem (notMem_definedOpcodes hlda hbrk htax hinx), fun op bytes i rest h => ?_⟩
  have hbytes : op :: bytes = encode i ++ rest := eq_encode_append_of_decode h
  obtain ⟨hhead, hlen, -⟩ := encodedShape i
  have hop : i.opcode = op := by
    have hfirst : (op :: bytes).head? = some i.opcode := by
      rw [hbytes, List.head?_append, hhead, Option.some_or]
    exact (Option.some.inj hfirst).symm
  exact ⟨hop, hop ▸ opcodeLength_opcode i, by rw [hbytes, List.length_append, hlen]⟩

end Sys2Proof
end

/-! O9. An undefined opcode is fetched alone and rejected by the decoder, and a rejection writes `run`
alone. -/
section
namespace Sys2Proof.Machine

/-- An undefined opcode is the only byte its step reads (30_encoding.md R45). -/
theorem fetchBytes_of_notMem {s : State} {op : Byte} (hread : s.program.read s.PC = some op)
    (hop : op ∉ definedOpcodes) : fetchBytes s = [op] :=
  fetchBytes_of_ne_lda hread fun hlda => hop (mem_definedOpcodes_iff.2 (.inl hlda))

/-- A running step at an undefined opcode raises UnimplementedOpcode (60_exceptions.md R81). -/
theorem step_of_notMem {s : State} {op : Byte} (hrun : s.run = .running)
    (hread : s.program.read s.PC = some op) (hop : op ∉ definedOpcodes) :
    step s = .next (s.raiseFault .unimplementedOpcode op) := by
  rw [step_of_running hrun, fetchBytes_of_notMem hread hop, decode_of_notMem hop]
  rfl

/-- The undefined opcodes are the bytes between the four defined ones (30_encoding.md R45). -/
theorem notMem_definedOpcodes_iff_ranges (op : Byte) :
    op ∉ definedOpcodes ↔
      (0x01 ≤ op.toNat ∧ op.toNat ≤ 0xA8) ∨ (0xAB ≤ op.toNat ∧ op.toNat ≤ 0xE7) ∨
        (0xE9 ≤ op.toNat ∧ op.toNat ≤ 0xFF) := by
  have hlt : op.toNat < 256 := op.isLt
  rw [mem_definedOpcodes_iff_toNat]
  omega

/-- The undefined opcodes among the 256 byte values are all but the four defined ones. -/
theorem filter_notMem_definedOpcodes :
    (Finset.range 256).filter (fun n => BitVec.ofNat 8 n ∉ definedOpcodes) =
      Finset.range 256 \ {0xA9, 0x00, 0xAA, 0xE8} := by
  ext n
  simp only [Finset.mem_filter, Finset.mem_sdiff, Finset.mem_range, Finset.mem_insert,
    Finset.mem_singleton, mem_definedOpcodes_iff_toNat, BitVec.toNat_ofNat]
  omega

/-- There are 252 undefined opcodes, 256 less the four (30_encoding.md R45). -/
theorem length_filter_notMem_definedOpcodes :
    ((List.range 256).filter (fun n => decide (BitVec.ofNat 8 n ∉ definedOpcodes))).length = 252 := by
  change ((Finset.range 256).filter (fun n => BitVec.ofNat 8 n ∉ definedOpcodes)).card = 252
  rw [filter_notMem_definedOpcodes, Finset.card_sdiff_of_subset (by simp [Finset.insert_subset_iff]),
    Finset.card_range]
  rfl

/-- Settles O9: the ranges by comparing numbers, the count as 256 less four, the step by the fetch and the
decoder of an undefined opcode. -/
theorem illegalOpcodeFaults : Obligations.IllegalOpcodeFaults := by
  unfold Obligations.IllegalOpcodeFaults
  exact ⟨notMem_definedOpcodes_iff_ranges, length_filter_notMem_definedOpcodes,
    fun _ _ hrun hread hop => ⟨fetchBytes_of_notMem hread hop, step_of_notMem hrun hread hop⟩⟩

end Sys2Proof.Machine
end

/-! O3. The four words are the four encodings, and every other first byte is rejected. -/
section
namespace Sys2Proof

/-- Settles O3, by decoding the four encodings and by the rejection of every other opcode. -/
theorem opcodeMapDecodes : Obligations.OpcodeMapDecodes := by
  unfold Obligations.OpcodeMapDecodes
  refine ⟨fun imm => decode_encode_append (.ldaImm imm), decode_encode_append .brk,
    decode_encode_append .tax, decode_encode_append .inx, fun op rest hlda hbrk htax hinx i after h => ?_⟩
  rw [decode_of_notMem (notMem_definedOpcodes hlda hbrk htax hinx)] at h
  cases h

end Sys2Proof
end

/-! The named bits of `status` as bit numbers, for the rules that speak of `status[i]`
(00_scope.md R14, 40_engine.md R55 to R57). -/
section
namespace Sys2Proof.Machine

/-- Writing a status bit writes the bit of its number and no other (00_scope.md R14). -/
theorem getLsbD_setStatusBit (status : Byte) (b : StatusBit) (on : Bool) (i : Nat) :
    (setStatusBit status b on).getLsbD i = if i = b.index then on else status.getLsbD i := by
  have hmask : (1#8 <<< b.index).getLsbD i = decide (i = b.index) := by
    change (BitVec.twoPow 8 b.index).getLsbD i = _
    simp [BitVec.getLsbD_twoPow, b.index_lt, eq_comm]
  cases on with
  | true =>
    rw [setStatusBit, if_pos rfl, BitVec.getLsbD_or, hmask]
    by_cases hi : i = b.index <;> simp [hi]
  | false =>
    have hhigh : status.getLsbD i = true → i < 8 := BitVec.lt_of_getLsbD
    rw [setStatusBit, if_neg Bool.false_ne_true, BitVec.getLsbD_and, BitVec.getLsbD_not, hmask]
    by_cases hi : i = b.index
    · simp [hi]
    · simpa [hi] using hhigh

/-- Writes of two different status bits commute. -/
theorem setStatusBit_comm (status : Byte) {b c : StatusBit} (hne : b ≠ c) (x y : Bool) :
    setStatusBit (setStatusBit status b x) c y = setStatusBit (setStatusBit status c y) b x := by
  apply status_ext
  intro d
  by_cases hb : d = b
  · subst hb; simp [hne]
  · simp [hb]

end Sys2Proof.Machine
end

/-! O17 and O18. `SetZero` and `SetNegative` are each the write of one named bit. -/
section
namespace Sys2Proof.Machine

/-- Settles O17: SetZero is the write of Z, which is bit 1. -/
theorem setZeroWritesZAlone : Obligations.SetZeroWritesZAlone := by
  unfold Obligations.SetZeroWritesZAlone
  exact fun status v =>
    ⟨getLsbD_setStatusBit status .Z _ 1, fun i hi =>
      (getLsbD_setStatusBit status .Z _ i).trans (if_neg hi)⟩

/-- Settles O18: SetNegative is the write of N, which is bit 7. -/
theorem setNegativeWritesNAlone : Obligations.SetNegativeWritesNAlone := by
  unfold Obligations.SetNegativeWritesNAlone
  exact fun status v =>
    ⟨getLsbD_setStatusBit status .N _ 7, fun i hi =>
      (getLsbD_setStatusBit status .N _ i).trans (if_neg hi)⟩

end Sys2Proof.Machine
end

/-! O19. Bit by bit, the one formula of 40_engine.md R57 does what `SetZN` does; the meanings apply
`SetZN` through `State.setZN`, and neither the register writes beside it nor the post-increment touch
`status`. -/
section
namespace Sys2Proof.Machine

/-- What the one formula does to every bit is what `SetZN(v)` does to it (40_engine.md R57). -/
theorem statusBit_flagFormula (status v : Byte) (b : StatusBit) :
    statusBit (flagFormula status v) b = statusBit (setZN status v) b := by
  rw [statusBit_setZN]
  by_cases hv : v = 0x00
  · subst hv
    cases b <;> simp [statusBit, flagFormula, StatusBit.index]
  · have hne : (v == 0x00) = false := beq_eq_false_iff_ne.2 hv
    simp only [flagFormula, if_neg hv, hne]
    cases b <;> simp [statusBit, StatusBit.index]

/-- `SetZN` is the one formula (40_engine.md R57). -/
theorem setZN_eq_flagFormula (status v : Byte) : setZN status v = flagFormula status v :=
  status_ext fun b => (statusBit_flagFormula status v b).symm

/-- `SetZN` writes bits 1 and 7 alone (40_engine.md R57). -/
theorem getLsbD_setZN_of_ne (status v : Byte) {i : Nat} (hZ : i ≠ 1) (hN : i ≠ 7) :
    (setZN status v).getLsbD i = status.getLsbD i :=
  (setNegativeWritesNAlone (setZero status v) v).2 i hN |>.trans
    ((setZeroWritesZAlone status v).2 i hZ)

/-- LDA #imm takes the flags from the immediate (41_load.md R70). -/
theorem status_of_exec_ldaImm {imm : Byte} {s t : State} (h : exec (.ldaImm imm) s = .next t) :
    t.status = setZN s.status imm := by
  cases h; simp

/-- BRK leaves `status` (42_halt.md R72). -/
theorem status_of_exec_brk {s t : State} (h : exec .brk s = .next t) : t.status = s.status := by
  cases h; rfl

/-- TAX takes the flags from the accumulator's old value (43_transfer.md R74). -/
theorem status_of_exec_tax {s t : State} (h : exec .tax s = .next t) :
    t.status = setZN s.status s.A := by
  cases h; simp

/-- INX takes the flags from the new X (44_increment.md R76). -/
theorem status_of_exec_inx {s t : State} (h : exec .inx s = .next t) :
    t.status = setZN s.status (s.X + 1) := by
  cases h; simp [increment]

/-- Settles O19: the formula bit by bit, the commuting helpers as writes of two different bits, and the
value that each meaning hands to `SetZN`. -/
theorem setZNIsOneFormula : Obligations.SetZNIsOneFormula := by
  unfold Obligations.SetZNIsOneFormula
  constructor
  · intro status v
    exact ⟨setZN_eq_flagFormula status v, setStatusBit_comm status (by decide) _ _,
      fun i hZ hN => getLsbD_setZN_of_ne status v hZ hN⟩
  · intro s t
    exact ⟨fun imm => status_of_exec_ldaImm, status_of_exec_tax, status_of_exec_inx,
      status_of_exec_brk⟩

end Sys2Proof.Machine
end

/-! O24. Every meaning but BRK's moves PC over its own bytes; every other way a step can go writes `run`
alone. -/
section
namespace Sys2Proof.Machine

/-- An instruction other than BRK is a body that keeps `run`, advances PC over the operand bytes alone and
ends with the post-increment (40_engine.md R59). -/
theorem exec_eq_next_postIncrement {i : Instr} (hi : i ≠ .brk) (s : State) :
    ∃ u : State, exec i s = .next u.postIncrement ∧ u.run = s.run ∧ u.PC + 1 = s.PC + i.length := by
  cases i with
  | brk => exact absurd rfl hi
  | ldaImm imm => exact ⟨_, rfl, rfl, rfl⟩
  | tax => exact ⟨_, rfl, rfl, rfl⟩
  | inx => exact ⟨_, rfl, rfl, rfl⟩

/-- From a running state an instruction other than BRK goes on Running, with PC past its bytes
(40_engine.md R59). -/
theorem run_PC_of_exec_of_ne_brk {i : Instr} {s t : State} (h : exec i s = .next t)
    (hi : i ≠ .brk) (hrun : s.run = .running) :
    t.run = .running ∧ t.PC = s.PC + i.length := by
  obtain ⟨u, hu, hurun, huPC⟩ := exec_eq_next_postIncrement hi s
  cases hu.symm.trans h
  rw [State.postIncrement_of_running (hurun.trans hrun)]
  exact ⟨hurun.trans hrun, huPC⟩

/-- A step goes on Running past the bytes of the instruction at PC, or ends the run and leaves PC
(40_engine.md R59). -/
theorem step_advances_or_ends {s t : State} (h : step s = .next t) :
    (∃ i : Instr, i ≠ .brk ∧ s.program.read s.PC = some i.opcode ∧ t.run = .running ∧
      t.PC = s.PC + i.length) ∨
    (t.run ≠ .running ∧ t.PC = s.PC) := by
  have hrun : s.run = .running := run_of_step_next h
  rcases step_cases hrun with ⟨-, hs⟩ | ⟨imm, hop, -, hs⟩ | ⟨-, -, hs⟩ | ⟨-, hs⟩ | ⟨hop, hs⟩ |
    ⟨hop, hs⟩ | ⟨op, -, -, hs⟩ <;> rw [hs] at h
  · cases h; exact .inr ⟨nofun, rfl⟩
  · exact .inl ⟨.ldaImm imm, nofun, hop, run_PC_of_exec_of_ne_brk h nofun hrun⟩
  · cases h; exact .inr ⟨nofun, rfl⟩
  · cases h; exact .inr ⟨nofun, rfl⟩
  · exact .inl ⟨.tax, nofun, hop, run_PC_of_exec_of_ne_brk h nofun hrun⟩
  · exact .inl ⟨.inx, nofun, hop, run_PC_of_exec_of_ne_brk h nofun hrun⟩
  · cases h; exact .inr ⟨nofun, rfl⟩

/-- Settles O24: a step that goes on has moved PC by the length of the instruction at PC, which is 2 for
LDA #imm and 1 for TAX and INX. -/
theorem programCounterAdvance : Obligations.ProgramCounterAdvance := by
  unfold Obligations.ProgramCounterAdvance
  intro s t h
  rcases step_advances_or_ends h with ⟨i, hi, hop, ht, hPC⟩ | ⟨ht, hPC⟩
  · refine ⟨fun _ => ?_, fun hne => absurd ht hne⟩
    cases i with
    | brk => exact absurd rfl hi
    | ldaImm imm => exact .inl ⟨hop, hPC⟩
    | tax => exact .inr ⟨.inl hop, hPC⟩
    | inx => exact .inr ⟨.inr hop, hPC⟩
  · exact ⟨fun hrun => absurd hrun ht, fun _ => hPC⟩

end Sys2Proof.Machine
end

/-! O30. A running step always answers a next state, because every meaning and every rejected fetch
does; no other state has one. -/
section
namespace Sys2Proof.Machine

/-- A running state has a next state (40_engine.md R52). -/
theorem exists_step_of_running {s : State} (hrun : s.run = .running) : ∃ t, step s = .next t := by
  rw [step_of_running hrun]
  cases decode (fetchBytes s) with
  | instr i rest => exact exec_answers_next i s
  | reject why => exact ⟨_, rfl⟩

/-- A state has a next state exactly if it is running (40_engine.md R52). -/
theorem exists_step_iff_running (s : State) : (∃ t, step s = .next t) ↔ s.run = .running :=
  ⟨fun ⟨_, h⟩ => run_of_step_next h, exists_step_of_running⟩

/-- The run states other than Running (10_state.md R26). -/
theorem RunState.ne_running_iff (r : RunState) :
    r ≠ .running ↔ r = .halted ∨ r = .endOfProgram ∨ ∃ reason op pc, r = .faulted reason op pc := by
  cases r <;> simp

/-- Settles O30: the second form is the negation of the first, with the other run states named. -/
theorem stepIsDefinedExactlyWhenRunning : Obligations.StepIsDefinedExactlyWhenRunning := by
  unfold Obligations.StepIsDefinedExactlyWhenRunning
  refine ⟨exists_step_iff_running, fun s => ?_⟩
  rw [← RunState.ne_running_iff, ne_eq, ← exists_step_iff_running, not_exists]

end Sys2Proof.Machine
end

/-! O14. TAX is one write of A, X and `status` followed by the post-increment; a step reaches it through
the decoder's round trip at a one-byte opcode. -/
section
namespace Sys2Proof.Machine

/-- A running step that fetches an instruction's encoding is that instruction's meaning
(40_engine.md R58, R62). -/
theorem step_of_fetchBytes_eq_encode {i : Instr} {s : State} (hrun : s.run = .running)
    (hfetch : fetchBytes s = encode i) : step s = exec i s := by
  have hdec : decode (encode i) = .instr i [] := by
    simpa only [List.append_nil] using decode_encode_append i []
  rw [step_of_running hrun, hfetch, hdec]

/-- An instruction without an operand is its opcode byte alone (30_encoding.md R41). -/
theorem encode_of_opcode_ne_lda {i : Instr} (hne : i.opcode ≠ opcodeLda) :
    encode i = [i.opcode] := by
  cases i with
  | ldaImm imm => exact absurd rfl hne
  | brk => rfl
  | tax => rfl
  | inx => rfl

/-- A running step at the opcode of an instruction without an operand is that instruction's meaning
(40_engine.md R58). -/
theorem step_of_read_opcode {i : Instr} {s : State} (hne : i.opcode ≠ opcodeLda)
    (hrun : s.run = .running) (hread : s.program.read s.PC = some i.opcode) :
    step s = exec i s :=
  step_of_fetchBytes_eq_encode hrun
    ((fetchBytes_of_ne_lda hread hne).trans (encode_of_opcode_ne_lda hne).symm)

/-- TAX in a running state, as one next state (43_transfer.md R74). -/
theorem exec_tax_of_running {s : State} (hrun : s.run = .running) :
    exec .tax s = .next
      { s with A := 0x00, X := s.A, status := flagFormula s.status s.A, PC := s.PC + 1 } := by
  rw [← setZN_eq_flagFormula]
  exact congrArg Host.Outcome.next (State.postIncrement_of_running hrun)

/-- TAX does not read X (43_transfer.md R74). -/
theorem exec_tax_setX (s : State) (x : Byte) : exec .tax (s.setX x) = exec .tax s := rfl

/-- TAX clears the accumulator (43_transfer.md R74). -/
theorem A_of_exec_tax {s t : State} (h : exec .tax s = .next t) : t.A = 0x00 := by
  cases h; simp

/-- TAX copies the accumulator to X (43_transfer.md R74). -/
theorem X_of_exec_tax {s t : State} (h : exec .tax s = .next t) : t.X = s.A := by
  cases h; simp

/-- Settles O14: the next state by the post-increment of a running state, the step by its opcode, the
old X because TAX does not read it, and the second TAX because its old accumulator is the one that the
first has cleared. -/
theorem transferMovesAndClears : Obligations.TransferMovesAndClears := by
  unfold Obligations.TransferMovesAndClears
  refine ⟨fun s hrun => exec_tax_of_running hrun,
    fun s hrun hread => step_of_read_opcode (by decide) hrun hread, ?_, ?_⟩
  · intro s x t u ht hu
    have heq : Host.Outcome.next t = .next u :=
      ht.symm.trans ((exec_tax_setX s x).symm.trans hu)
    exact Host.Outcome.next.inj heq
  · intro s t u ht hu
    have hA : t.A = 0x00 := A_of_exec_tax ht
    have hstatus : u.status = setZN t.status 0x00 := hA ▸ status_of_exec_tax hu
    refine ⟨A_of_exec_tax hu, (X_of_exec_tax hu).trans hA, ?_, ?_⟩
    · rw [hstatus, statusBit_setZN]; rfl
    · rw [hstatus, statusBit_setZN]; rfl

end Sys2Proof.Machine
end

/-! O16. INX is one write of X and `status` followed by the post-increment; the incremented value is the
byte's successor modulo 256, so 0xFF wraps to 0x00 (44_increment.md R76, R77). -/
section
namespace Sys2Proof.Machine

/-- The increment is modulo 256 (44_increment.md R77). -/
theorem toNat_increment (v : Byte) : (increment v).toNat = (v.toNat + 1) % 256 :=
  BitVec.toNat_add v 1

/-- The one formula keeps every bit but Z and N (40_engine.md R57). -/
theorem statusBit_flagFormula_of_ne (status v : Byte) {b : StatusBit} (hZ : b ≠ .Z) (hN : b ≠ .N) :
    statusBit (flagFormula status v) b = statusBit status b :=
  (statusBit_flagFormula status v b).trans ((StatusUpdate.writeZN v).statusBit_eq status hZ hN)

/-- INX in a running state, as one next state (44_increment.md R76). -/
theorem exec_inx_of_running {s : State} (hrun : s.run = .running) :
    exec .inx s = .next
      { s with X := increment s.X, status := flagFormula s.status (increment s.X),
               PC := s.PC + 1 } := by
  rw [← setZN_eq_flagFormula]
  exact congrArg Host.Outcome.next (State.postIncrement_of_running hrun)

/-- INX increments X (44_increment.md R76). -/
theorem X_of_exec_inx {s t : State} (h : exec .inx s = .next t) : t.X = increment s.X := by
  cases h; simp

/-- Settles O16: the next state by the post-increment of a running state, its C and V because the flag
formula writes Z and N alone, the step by its opcode, and the wrap because 0xFF increments to 0x00, whose
flags are Z = 1 and N = 0. -/
theorem incrementWrapsModulo256 : Obligations.IncrementWrapsModulo256 := by
  unfold Obligations.IncrementWrapsModulo256
  refine ⟨fun s hrun => ⟨_, exec_inx_of_running hrun, toNat_increment s.X, rfl,
      statusBit_flagFormula_of_ne _ _ nofun nofun, statusBit_flagFormula_of_ne _ _ nofun nofun⟩,
    fun s hrun hread => step_of_read_opcode (by decide) hrun hread, ?_⟩
  intro s t hFF h
  have hwrap : increment s.X = 0x00 := by rw [hFF]; rfl
  have hstatus : t.status = setZN s.status 0x00 := hwrap ▸ status_of_exec_inx h
  refine ⟨(X_of_exec_inx h).trans hwrap, ?_, ?_⟩
  · rw [hstatus, statusBit_setZN]; rfl
  · rw [hstatus, statusBit_setZN]; rfl

end Sys2Proof.Machine
end

/-! O25 and O28. A step that does not go on Running writes `run` alone: with EndOfProgram where there is no
opcode, with Halted at 0x00, and with a fault record of the opcode at PC (60_exceptions.md R84, R90). -/
section
namespace Sys2Proof.Machine

/-- Halted cleanly is `run = Halted` (40_engine.md R69). -/
theorem State.haltedCleanly_iff (s : State) : s.haltedCleanly = true ↔ s.run = .halted :=
  decide_eq_true_iff

/-- A step goes on Running, or is one of the three ends of a run, with the byte at PC that each end stands
for (60_exceptions.md R83, R84, R90). -/
theorem step_runs_on_or_stops {s t : State} (h : step s = .next t) :
    t.run = .running ∨
    (s.program.read s.PC = none ∧ t = s.stopEndOfProgram) ∨
    (s.program.read s.PC = some opcodeBrk ∧ t = s.stopHalted) ∨
    (∃ reason op, s.program.read s.PC = some op ∧ t = s.raiseFault reason op) := by
  have hrun : s.run = .running := run_of_step_next h
  rcases step_cases hrun with ⟨hop, hs⟩ | ⟨imm, -, -, hs⟩ | ⟨hop, -, hs⟩ | ⟨hop, hs⟩ | ⟨-, hs⟩ |
    ⟨-, hs⟩ | ⟨op, hop, -, hs⟩ <;> rw [hs] at h
  · cases h; exact .inr (.inl ⟨hop, rfl⟩)
  · exact .inl (run_PC_of_exec_of_ne_brk h nofun hrun).1
  · cases h; exact .inr (.inr (.inr ⟨_, _, hop, rfl⟩))
  · cases h; exact .inr (.inr (.inl ⟨hop, rfl⟩))
  · exact .inl (run_PC_of_exec_of_ne_brk h nofun hrun).1
  · exact .inl (run_PC_of_exec_of_ne_brk h nofun hrun).1
  · cases h; exact .inr (.inr (.inr ⟨_, _, hop, rfl⟩))

/-- A step that ends in a fault has raised it with the opcode at PC (60_exceptions.md R81, R82, R90). -/
theorem eq_raiseFault_of_step_faulted {s t : State} {reason : FaultReason} {op : Byte} {pc : Nat}
    (h : step s = .next t) (ht : t.run = .faulted reason op pc) :
    t = s.raiseFault reason op ∧ pc = s.PC ∧ s.program.read s.PC = some op := by
  rcases step_runs_on_or_stops h with hgo | ⟨-, rfl⟩ | ⟨-, rfl⟩ | ⟨reason', op', hop, rfl⟩
  · exact nomatch hgo.symm.trans ht
  · cases ht
  · cases ht
  · cases ht
    exact ⟨rfl, rfl, hop⟩

/-- A step that ends in Halted has stopped at the halt opcode (60_exceptions.md R84). -/
theorem eq_stopHalted_of_step_halted {s t : State} (h : step s = .next t) (ht : t.run = .halted) :
    t = s.stopHalted ∧ s.program.read s.PC = some opcodeBrk := by
  rcases step_runs_on_or_stops h with hgo | ⟨-, rfl⟩ | ⟨hop, rfl⟩ | ⟨reason, op, -, rfl⟩
  · exact nomatch hgo.symm.trans ht
  · cases ht
  · exact ⟨rfl, hop⟩
  · cases ht

/-- A step at the halt opcode ends in Halted (42_halt.md R72). -/
theorem run_of_step_brk {s t : State} (h : step s = .next t)
    (hop : s.program.read s.PC = some opcodeBrk) : t.run = .halted := by
  have hs : step s = exec .brk s :=
    step_of_read_opcode (i := .brk) (by decide) (run_of_step_next h) hop
  cases hs.symm.trans h
  rfl

/-- Settles O25: of the ends of a run only the raised fault is a fault, and it writes `run` alone. -/
theorem faultWritesOnlyRun : Obligations.FaultWritesOnlyRun := by
  unfold Obligations.FaultWritesOnlyRun
  intro s t reason op pc h ht
  obtain ⟨hraise, rfl, hop⟩ := eq_raiseFault_of_step_faulted h ht
  exact ⟨hraise, rfl, hop⟩

/-- Settles O28: of the ends of a run only the stop at 0x00 is Halted, and at 0x00 the step is that
stop. -/
theorem cleanHaltExactlyByOpcodeZero : Obligations.CleanHaltExactlyByOpcodeZero := by
  unfold Obligations.CleanHaltExactlyByOpcodeZero
  intro s t h
  rw [State.haltedCleanly_iff]
  exact ⟨⟨fun ht => (eq_stopHalted_of_step_halted h ht).2, run_of_step_brk h⟩,
    fun ht => (eq_stopHalted_of_step_halted h ht).1⟩

end Sys2Proof.Machine
end

/-! O1. The reset state's registers are zero, so every status bit is clear, and run entry places the first
opcode fetch at index 0 whatever the start state is (70_reset_and_hazards.md R100, R101). -/
section
namespace Sys2Proof.Machine

/-- The zero status register has every bit clear (70_reset_and_hazards.md R100). -/
@[simp] theorem statusBit_zero (b : StatusBit) : statusBit 0x00 b = false :=
  BitVec.getLsbD_zero

/-- A run begins at index 0 (70_reset_and_hazards.md R101). -/
@[simp] theorem opcodeAddress_enter (start : State) (prog : List Byte) :
    opcodeAddress (start.enter prog) = 0 :=
  State.enter_PC start prog

/-- Settles O1: the fields are those of the reset record, the status bits are bits of zero, and the first
fetch is that of run entry. -/
theorem resetCreatesTheZeroState : Obligations.ResetCreatesTheZeroState := by
  unfold Obligations.ResetCreatesTheZeroState
  exact ⟨rfl, rfl, rfl, rfl, rfl, statusBit_zero, opcodeAddress_enter State.reset⟩

end Sys2Proof.Machine
end

/-! O5 and O6. The decoder and the encoder are inverse on one instruction; the reading of a listing and its
assembly follow instruction by instruction (30_encoding.md R41 to R47). -/
section
namespace Sys2Proof

/-- Settles O5: one direction reads what is decoded as an encoding, the other decodes an encoding. -/
theorem decodeIsTheInverseOfEncode : Obligations.DecodeIsTheInverseOfEncode := by
  unfold Obligations.DecodeIsTheInverseOfEncode
  intro bytes i rest
  constructor
  · exact eq_encode_append_of_decode
  · rintro rfl
    exact decode_encode_append i rest

@[simp] theorem assemble_nil : assemble [] = [] := rfl

/-- A listing's bytes are its first instruction's bytes and those of the rest (30_encoding.md R47). -/
@[simp] theorem assemble_cons (i : Instr) (listing : List Instr) :
    assemble (i :: listing) = encode i ++ assemble listing :=
  List.flatMap_cons

/-- An instruction has at least its opcode byte (30_encoding.md R44). -/
theorem Instr.length_pos (i : Instr) : 0 < i.length := by
  cases i <;> exact Nat.succ_pos _

/-- An encoding has the length of its instruction (30_encoding.md R44). -/
theorem length_encode (i : Instr) : (encode i).length = i.length := by
  obtain ⟨-, hlen, -⟩ := encodedShape i
  exact hlen

@[simp] theorem disassemble_nil (fuel : Nat) : disassemble fuel [] = some [] := by
  cases fuel <;> rfl

/-- Reading on goes through the decoder: the first instruction, then the bytes after it. -/
theorem disassemble_of_decode {bytes rest : List Byte} {i : Instr}
    (h : decode bytes = .instr i rest) (fuel : Nat) :
    disassemble (fuel + 1) bytes = (disassemble fuel rest).map (i :: ·) := by
  cases bytes with
  | nil => cases h
  | cons b bs => simp only [disassemble, h]

/-- What is rejected is not read as a listing. -/
theorem disassemble_of_reject {b : Byte} {bs : List Byte} {why : DecodeReject}
    (h : decode (b :: bs) = .reject why) (fuel : Nat) : disassemble fuel (b :: bs) = none := by
  cases fuel with
  | zero => rfl
  | succ fuel => simp only [disassemble, h]

/-- With a fuel of at least its length in bytes an assembled listing is read back. -/
theorem disassemble_assemble {listing : List Instr} {fuel : Nat}
    (h : (assemble listing).length ≤ fuel) :
    disassemble fuel (assemble listing) = some listing := by
  induction listing generalizing fuel with
  | nil => exact disassemble_nil fuel
  | cons i listing ih =>
    have hpos : 0 < i.length := i.length_pos
    rw [assemble_cons, List.length_append, length_encode] at h
    obtain ⟨fuel, rfl⟩ : ∃ n, fuel = n + 1 := Nat.exists_eq_add_one.2 (by omega)
    rw [assemble_cons, disassemble_of_decode (decode_encode_append i _), ih (by omega)]
    rfl

/-- What is read as a listing is that listing's assembly. -/
theorem assemble_of_disassemble {fuel : Nat} {bytes : List Byte} {listing : List Instr}
    (h : disassemble fuel bytes = some listing) : assemble listing = bytes := by
  induction fuel generalizing bytes listing with
  | zero =>
    cases bytes with
    | nil => cases h; rfl
    | cons b bs => cases h
  | succ fuel ih =>
    cases bytes with
    | nil => cases h; rfl
    | cons b bs =>
      cases hdec : decode (b :: bs) with
      | reject why => rw [disassemble_of_reject hdec] at h; cases h
      | instr i rest =>
        rw [disassemble_of_decode hdec, Option.map_eq_some_iff] at h
        obtain ⟨tail, htail, rfl⟩ := h
        rw [assemble_cons, ih htail, eq_encode_append_of_decode hdec]

/-- Settles O6: the first part by induction over the listing, the second by induction over the fuel. -/
theorem assembledListingsReadBack : Obligations.AssembledListingsReadBack := by
  unfold Obligations.AssembledListingsReadBack
  exact ⟨fun _ _ => disassemble_assemble, fun _ _ _ => assemble_of_disassemble⟩

end Sys2Proof
end

/-! The rows of the transition table that are no meaning of a one-byte instruction, as equations of a
running step (40_engine.md section 6), and the fault rows read backwards. -/
section
namespace Sys2Proof.Machine

/-- A fetch that finds no byte ends the run (40_engine.md R53). -/
theorem step_of_read_none {s : State} (hrun : s.run = .running)
    (hread : s.program.read s.PC = none) : step s = .next s.stopEndOfProgram := by
  rw [step_of_running hrun, fetchBytes_of_none hread]
  rfl

/-- 0xA9 with an operand byte is LDA #imm of that byte (41_load.md R70). -/
theorem step_of_lda_operand {s : State} {imm : Byte} (hrun : s.run = .running)
    (hread : s.program.read s.PC = some opcodeLda)
    (himm : s.program.read (s.PC + 1) = some imm) : step s = exec (.ldaImm imm) s :=
  step_of_fetchBytes_eq_encode hrun (by rw [fetchBytes_of_lda hread, himm]; rfl)

/-- 0xA9 without an operand byte raises OperandOutOfBounds (60_exceptions.md R82). -/
theorem step_of_lda_no_operand {s : State} (hrun : s.run = .running)
    (hread : s.program.read s.PC = some opcodeLda) (himm : s.program.read (s.PC + 1) = none) :
    step s = .next (s.raiseFault .operandOutOfBounds opcodeLda) := by
  rw [step_of_running hrun, fetchBytes_of_lda hread, himm]
  rfl

/-- A step that ends in a fault met the condition of that fault (60_exceptions.md R81, R82). -/
theorem fault_condition_of_step_faulted {s t : State} {reason : FaultReason} {op : Byte} {pc : Nat}
    (h : step s = .next t) (ht : t.run = .faulted reason op pc) :
    (reason = .unimplementedOpcode ∧ op ∉ definedOpcodes) ∨
    (reason = .operandOutOfBounds ∧ op = opcodeLda ∧ s.program.read (s.PC + 1) = none) := by
  have hrun : s.run = .running := run_of_step_next h
  rcases step_cases hrun with ⟨-, hs⟩ | ⟨imm, -, -, hs⟩ | ⟨-, himm, hs⟩ | ⟨-, hs⟩ | ⟨-, hs⟩ |
    ⟨-, hs⟩ | ⟨op, -, hop, hs⟩ <;> rw [hs] at h
  · cases h; cases ht
  · exact nomatch (run_PC_of_exec_of_ne_brk h nofun hrun).1.symm.trans ht
  · cases h; cases ht; exact .inr ⟨rfl, rfl, himm⟩
  · cases h; cases ht
  · exact nomatch (run_PC_of_exec_of_ne_brk h nofun hrun).1.symm.trans ht
  · exact nomatch (run_PC_of_exec_of_ne_brk h nofun hrun).1.symm.trans ht
  · cases h; cases ht; exact .inl ⟨rfl, hop⟩

/-- A step that ends in EndOfProgram found no byte at PC and wrote `run` alone (60_exceptions.md
R83). -/
theorem eq_stopEndOfProgram_of_step {s t : State} (h : step s = .next t)
    (ht : t.run = .endOfProgram) : t = s.stopEndOfProgram ∧ s.program.read s.PC = none := by
  rcases step_runs_on_or_stops h with hgo | ⟨hread, rfl⟩ | ⟨-, rfl⟩ | ⟨reason, op, -, rfl⟩
  · exact nomatch hgo.symm.trans ht
  · exact ⟨rfl, hread⟩
  · cases ht
  · cases ht

/-! In canonical form "no byte stands there" is "at or past L" (20_memory.md R30). -/

section Canonical
variable {s t : State} (hwf : s.program.wf = true)
include hwf

/-- Past the end a fetch ends the run (40_engine.md R53). -/
theorem step_past_end (hrun : s.run = .running) (hle : s.L ≤ s.PC) :
    step s = .next s.stopEndOfProgram :=
  step_of_read_none hrun ((Memory.read_eq_none_iff hwf s.PC).2 hle)

/-- Where an opcode stands, its operand is missing exactly if it is the last byte. -/
theorem operand_eq_none_iff {op : Byte} (hread : s.program.read s.PC = some op) :
    s.program.read (s.PC + 1) = none ↔ s.PC + 1 = s.L := by
  have hlt : s.PC < s.L := Memory.lt_length_of_read hwf hread
  rw [Memory.read_eq_none_iff hwf, State.L]
  exact ⟨fun hle => Nat.le_antisymm hlt hle, fun heq => heq.ge⟩

/-- A step goes on Running only over bytes that stand in the program (40_engine.md R68). -/
theorem PC_le_L_of_step_running (h : step s = .next t) (ht : t.run = .running) : t.PC ≤ s.L := by
  rcases step_advances_or_ends h with ⟨i, hi, hread, -, hPC⟩ | ⟨hne, -⟩
  · rw [hPC]
    cases i with
    | brk => exact absurd rfl hi
    | ldaImm imm =>
      cases himm : s.program.read (s.PC + 1) with
      | some b => exact Memory.lt_length_of_read hwf himm
      | none =>
        cases (step_of_lda_no_operand (run_of_step_next h) hread himm).symm.trans h
        cases ht
    | tax => exact Memory.lt_length_of_read hwf hread
    | inx => exact Memory.lt_length_of_read hwf hread
  · exact absurd ht hne

end Canonical

end Sys2Proof.Machine
end

/-! O37 and O38. What `runFits` says of each run state, and what a step can end in, agree end by end
(10_state.md R25, R26, 60_exceptions.md R81 to R84). -/
section
namespace Sys2Proof.Machine

section RunFits
variable {s : State}

theorem runFits_of_running (hrun : s.run = .running) : s.runFits = true ↔ s.PC ≤ s.L := by
  simp [State.runFits, hrun]

theorem runFits_of_halted (hrun : s.run = .halted) :
    s.runFits = true ↔ s.program.read s.PC = some opcodeBrk := by
  simp [State.runFits, hrun]

theorem runFits_of_endOfProgram (hrun : s.run = .endOfProgram) :
    s.runFits = true ↔ s.PC = s.L := by
  simp [State.runFits, hrun]

theorem runFits_of_faulted {reason : FaultReason} {op : Byte} {pc : Nat}
    (hrun : s.run = .faulted reason op pc) :
    s.runFits = true ↔ pc = s.PC ∧ s.program.read s.PC = some op ∧
      ((reason = .unimplementedOpcode ∧ op ∉ definedOpcodes) ∨
        (reason = .operandOutOfBounds ∧ op = opcodeLda ∧ s.PC + 1 = s.L)) := by
  have hfits : s.runFits = faultRecordFits s reason op pc := by simp [State.runFits, hrun]
  rw [hfits]
  by_cases hpc : pc = s.PC
  · subst hpc
    cases reason <;> simp [faultRecordFits]
  · simp [faultRecordFits, hpc]

end RunFits

/-- The length of the program is the same after a step. -/
theorem L_of_step {s t : State} (h : step s = .next t) : t.L = s.L :=
  congrArg List.length (program_of_step h)

/-- Settles O38: a step that goes on stays within the program, and each end of a run stands at the byte
that its run state claims. -/
theorem everyStepKeepsTheInvariant : Obligations.EveryStepKeepsTheInvariant := by
  unfold Obligations.EveryStepKeepsTheInvariant
  rintro s t ⟨hwf, hfits⟩ h
  refine ⟨by rwa [program_of_step h], ?_⟩
  rcases step_runs_on_or_stops h with ht | ⟨hread, rfl⟩ | ⟨hread, rfl⟩ | ⟨reason, op, hread, rfl⟩
  · rw [runFits_of_running ht, L_of_step h]
    exact PC_le_L_of_step_running hwf h ht
  · have hle : s.PC ≤ s.L := (runFits_of_running (run_of_step_next h)).1 hfits
    have hge : s.L ≤ s.PC := (Memory.read_eq_none_iff hwf s.PC).1 hread
    exact (runFits_of_endOfProgram rfl).2 (Nat.le_antisymm hle hge)
  · exact (runFits_of_halted rfl).2 hread
  · refine (runFits_of_faulted rfl).2 ⟨rfl, hread, ?_⟩
    rcases fault_condition_of_step_faulted h rfl with ⟨rfl, hop⟩ | ⟨rfl, rfl, himm⟩
    · exact .inl ⟨rfl, hop⟩
    · exact .inr ⟨rfl, rfl, (operand_eq_none_iff hwf hread).1 himm⟩

/-- A run entry is Running at index 0 of a program in canonical form. -/
theorem State.Inv_enter (start : State) (prog : List Byte) : (start.enter prog).Inv :=
  ⟨Memory.wf_ofBytes prog, (runFits_of_running rfl).2 (Nat.zero_le _)⟩

/-- Settles O37: reset is the empty program at index 0, a run entry is the caller's program there. -/
theorem runEntryMeetsTheInvariant : Obligations.RunEntryMeetsTheInvariant := by
  unfold Obligations.RunEntryMeetsTheInvariant
  exact ⟨⟨rfl, (runFits_of_running rfl).2 (Nat.le_refl 0)⟩, State.Inv_enter⟩

/-- Every state that a run reaches meets the invariant. -/
theorem Inv_of_steps_enter {k : Nat} {start t : State} {prog : List Byte}
    (h : steps k (start.enter prog) = .next t) : t.Inv :=
  steps_induction everyStepKeepsTheInvariant (start.Inv_enter prog) h

/-- In every state that a run reaches L is the length of the caller's program. -/
theorem L_of_steps_enter {k : Nat} {start t : State} {prog : List Byte}
    (h : steps k (start.enter prog) = .next t) : t.L = prog.length :=
  (programIsNeverWritten.2 k start prog t h).1

end Sys2Proof.Machine
end

/-! O34. PC rises by at least one with every step that goes on and stays at most L, so L − PC + 1 steps
are enough (40_engine.md R67). -/
section
namespace Sys2Proof.Machine

/-- A step that goes on Running increases PC (40_engine.md R67). -/
theorem PC_lt_of_step_running {s t : State} (h : step s = .next t) (ht : t.run = .running) :
    s.PC < t.PC := by
  rcases step_advances_or_ends h with ⟨i, -, -, -, hPC⟩ | ⟨hne, -⟩
  · have hpos : 0 < i.length := i.length_pos
    omega
  · exact absurd ht hne

/-- From a running state of the invariant any number of steps above L − PC reaches a terminal state on
the way (40_engine.md R67). -/
theorem exists_steps_terminal {s : State} {n : Nat} (hinv : s.Inv) (hrun : s.run = .running)
    (hn : s.L < s.PC + n) :
    ∃ k t, k ≤ n ∧ steps k s = .next t ∧ t.run.isTerminal = true := by
  induction n generalizing s with
  | zero =>
    have hle : s.PC ≤ s.L := (runFits_of_running hrun).1 hinv.2
    omega
  | succ n ih =>
    obtain ⟨u, hu⟩ := exists_step_of_running hrun
    by_cases hurun : u.run = .running
    · have hPC : s.PC < u.PC := PC_lt_of_step_running hu hurun
      have hL : u.L = s.L := L_of_step hu
      obtain ⟨k, t, hk, ht, hterm⟩ :=
        ih (everyStepKeepsTheInvariant s u hinv hu) hurun (by omega)
      exact ⟨k + 1, t, Nat.succ_le_succ hk, steps_succ_next.2 ⟨u, hu, ht⟩, hterm⟩
    · exact ⟨1, u, Nat.le_add_left 1 n, steps_succ_next.2 ⟨u, hu, rfl⟩,
        u.run.isTerminal_iff.2 hurun⟩

/-- A run ends within L + 1 steps (40_engine.md R67). -/
theorem exists_steps_enter_terminal (start : State) (prog : List Byte) :
    ∃ k t, k ≤ prog.length + 1 ∧ steps k (start.enter prog) = .next t ∧
      t.run.isTerminal = true := by
  refine exists_steps_terminal (start.Inv_enter prog) rfl ?_
  have hL : (start.enter prog).L = prog.length := L_of_steps_enter (steps_zero _)
  rw [hL, State.enter_PC]
  omega

/-- Settles O34: the progress of one step, and the run by induction over the steps that are left. -/
theorem everyRunEndsWithinLengthPlusOneSteps :
    Obligations.EveryRunEndsWithinLengthPlusOneSteps := by
  unfold Obligations.EveryRunEndsWithinLengthPlusOneSteps
  refine ⟨fun s t hinv h ht => ⟨PC_lt_of_step_running h ht, ?_⟩, exists_steps_enter_terminal⟩
  rw [L_of_step h]
  exact PC_le_L_of_step_running hinv.1 h ht

end Sys2Proof.Machine
end

/-! O31, O32, O33 and O35. The loop with enough fuel answers the terminal state that the steps reach, so
that state is the only one, and a run always reaches it (40_engine.md R61, R66, R67). -/
section
namespace Sys2Proof.Machine

/-- Settles O31: a terminal state is not running, so already the first step answers noStep. -/
theorem terminalStatesAreAbsorbing : Obligations.TerminalStatesAreAbsorbing := by
  unfold Obligations.TerminalStatesAreAbsorbing
  intro s hterm
  have hstep : step s = .fault (.noStep s.run) :=
    step_of_ne_running (s.run.isTerminal_iff.1 hterm)
  exact ⟨fun k => by rw [steps_succ, hstep], fun _ => ⟨rfl, rfl⟩⟩

/-- The loop answers the terminal state that its steps reach (40_engine.md R61). -/
theorem runLoop_of_steps {k fuel : Nat} {s t : State} (h : steps k s = .next t)
    (hterm : t.run.isTerminal = true) (hk : k ≤ fuel) : runLoop fuel s = .next t := by
  induction k generalizing s fuel with
  | zero => cases h; exact runLoop_of_terminal hterm fuel
  | succ k ih =>
    obtain ⟨u, hu, ht⟩ := steps_succ_next.1 h
    obtain ⟨fuel, rfl⟩ : ∃ n, fuel = n + 1 := Nat.exists_eq_add_one.2 (by omega)
    rw [runLoop_of_step hu]
    exact ih ht (Nat.le_of_succ_le_succ hk)

/-- No two terminal states are reached from one state. -/
theorem eq_of_steps_terminal {j k : Nat} {s t u : State} (ht : steps j s = .next t)
    (htterm : t.run.isTerminal = true) (hu : steps k s = .next u)
    (huterm : u.run.isTerminal = true) : t = u := by
  have hloop : Host.Outcome.next t = .next u :=
    (runLoop_of_steps ht htterm (Nat.le_max_left j k)).symm.trans
      (runLoop_of_steps hu huterm (Nat.le_max_right j k))
  exact Host.Outcome.next.inj hloop

/-- The entry point answers the outputs of the terminal state that the steps from run entry reach
(40_engine.md R60, R61). -/
theorem runProgram_of_steps {p : Config.Params} {prog : List Byte} {start t : State} {k : Nat}
    (hacc : p.acceptsProgram prog = true) (h : steps k (start.enter prog) = .next t)
    (hterm : t.run.isTerminal = true) : runProgram p prog start = .next t.output := by
  obtain ⟨j, u, hj, hu, huterm⟩ := exists_steps_enter_terminal start prog
  obtain rfl : u = t := eq_of_steps_terminal hu huterm h hterm
  rw [runProgram, if_pos hacc, runLoop_of_steps hu huterm hj]

/-- Settles O33: a run reaches a terminal state, and no other. -/
theorem entryPointIsTheWhileLoop : Obligations.EntryPointIsTheWhileLoop := by
  unfold Obligations.EntryPointIsTheWhileLoop
  intro p prog start hacc
  obtain ⟨k, t, -, h, hterm⟩ := exists_steps_enter_terminal start prog
  have hanswer : runProgram p prog start = .next t.output := runProgram_of_steps hacc h hterm
  refine ⟨⟨_, hanswer⟩, fun out => ⟨fun hout => ⟨k, t, h, hterm, ?_⟩, ?_⟩⟩
  · exact Host.Outcome.next.inj (hout.symm.trans hanswer)
  · rintro ⟨j, u, hu, huterm, rfl⟩
    exact runProgram_of_steps hacc hu huterm

/-- A fault is terminal (40_engine.md R66). -/
theorem RunState.isTerminal_of_isFault {r : RunState} (h : r.isFault = true) :
    r.isTerminal = true := by
  cases r with
  | faulted reason op pc => rfl
  | _ => cases h

/-- Settles O32: a faulted state is terminal, so the loop ends in it. -/
theorem faultIsSeenAtTheEnd : Obligations.FaultIsSeenAtTheEnd := by
  unfold Obligations.FaultIsSeenAtTheEnd
  intro p prog start k u hacc h hfault
  have hisFault : u.run.isFault = true := by simpa [State.noFault] using hfault
  exact ⟨u.output, runProgram_of_steps hacc h (RunState.isTerminal_of_isFault hisFault), rfl⟩

/-- Settles O35: the answer is the terminal state that the run reaches; a longer program is turned away
before run entry. -/
theorem entryPointAnswersOneOfThreeOutcomes :
    Obligations.EntryPointAnswersOneOfThreeOutcomes := by
  unfold Obligations.EntryPointAnswersOneOfThreeOutcomes
  intro p prog start
  constructor
  · intro hacc
    obtain ⟨k, t, -, h, hterm⟩ := exists_steps_enter_terminal start prog
    exact ⟨t.output, runProgram_of_steps hacc h hterm, hterm⟩
  · intro hacc
    rw [runProgram, if_neg (by rw [hacc]; exact Bool.false_ne_true)]

end Sys2Proof.Machine
end

/-! O36. At PC = L no byte stands, so by the invariant the run is at EndOfProgram or about to be; the
width of PC holds every PC up to the length limit (00_scope.md R12, 40_engine.md R68). -/
section
namespace Sys2Proof.Machine

/-- Where PC stands in a state of the invariant: at most at L while Running, at L in EndOfProgram, and
below L at the byte that halted or faulted the run (40_engine.md R68). -/
theorem PC_cases_of_Inv {s : State} (hinv : s.Inv) :
    (s.run = .running ∧ s.PC ≤ s.L) ∨ (s.run = .endOfProgram ∧ s.PC = s.L) ∨ s.PC < s.L := by
  obtain ⟨hwf, hfits⟩ := hinv
  cases hrun : s.run with
  | running => exact .inl ⟨rfl, (runFits_of_running hrun).1 hfits⟩
  | endOfProgram => exact .inr (.inl ⟨rfl, (runFits_of_endOfProgram hrun).1 hfits⟩)
  | halted =>
    exact .inr (.inr (Memory.lt_length_of_read hwf ((runFits_of_halted hrun).1 hfits)))
  | faulted reason op pc =>
    obtain ⟨-, hread, -⟩ := (runFits_of_faulted hrun).1 hfits
    exact .inr (.inr (Memory.lt_length_of_read hwf hread))

/-- A state of the invariant has PC at most L (40_engine.md R68). -/
theorem PC_le_L_of_Inv {s : State} (hinv : s.Inv) : s.PC ≤ s.L := by
  rcases PC_cases_of_Inv hinv with ⟨-, hle⟩ | ⟨-, heq⟩ | hlt
  · exact hle
  · exact heq.le
  · exact hlt.le

/-- A state of the invariant with PC = L has ended with EndOfProgram or does so with its next step
(40_engine.md R68). -/
theorem endOfProgram_or_next_of_PC_eq_L {s : State} (hinv : s.Inv) (hPC : s.PC = s.L) :
    s.run = .endOfProgram ∨ (s.run = .running ∧ step s = .next s.stopEndOfProgram) := by
  rcases PC_cases_of_Inv hinv with ⟨hrun, -⟩ | ⟨hrun, -⟩ | hlt
  · exact .inr ⟨hrun, step_past_end hinv.1 hrun hPC.ge⟩
  · exact .inl hrun
  · exact absurd hPC hlt.ne

/-- An admissible width holds every index of an accepted program and its end (00_scope.md R12). -/
theorem length_lt_two_pow_pcBits {p : Config.Params} {prog : List Byte}
    (hadm : p.admissible = true) (hacc : p.acceptsProgram prog = true) :
    prog.length < 2 ^ p.pcBits := by
  have hwidth : p.maxProgramLen ≤ 2 ^ p.pcBits - 1 := of_decide_eq_true hadm
  have hlen : prog.length ≤ p.maxProgramLen := of_decide_eq_true hacc
  have hpos : 0 < 2 ^ p.pcBits := Nat.two_pow_pos p.pcBits
  omega

/-- Settles O36: the invariant holds of every state that a run reaches, and L is the program's length. -/
theorem programCounterStaysWithinTheProgram :
    Obligations.ProgramCounterStaysWithinTheProgram := by
  unfold Obligations.ProgramCounterStaysWithinTheProgram
  intro p prog start k t hadm hacc h
  have hinv : t.Inv := Inv_of_steps_enter h
  have hle : t.PC ≤ t.L := PC_le_L_of_Inv hinv
  rw [← L_of_steps_enter h]
  refine ⟨hle, endOfProgram_or_next_of_PC_eq_L hinv, hle.trans_lt ?_⟩
  rw [L_of_steps_enter h]
  exact length_lt_two_pow_pcBits hadm hacc

end Sys2Proof.Machine
end

/-! O8, O26, O27 and O29. Each end of a step has its condition at PC, and the conditions exclude each
other, so the first check that holds decides (60_exceptions.md R86). -/
section
namespace Sys2Proof.Machine

/-- Settles O8: past the end there is no opcode, and the empty program ends at index 0. -/
theorem fetchPastTheEndStops : Obligations.FetchPastTheEndStops := by
  unfold Obligations.FetchPastTheEndStops
  exact ⟨fun s hrun hwf hle => step_past_end hwf hrun hle,
    fun start => step_past_end (Memory.wf_ofBytes []) rfl (Nat.le_refl 0)⟩

/-- Settles O26: forwards a fault has met its condition, backwards the condition raises the fault. -/
theorem faultsAreRaisedExactlyWhen : Obligations.FaultsAreRaisedExactlyWhen := by
  unfold Obligations.FaultsAreRaisedExactlyWhen
  intro s t hwf h
  have hrun : s.run = .running := run_of_step_next h
  constructor
  · intro op pc
    constructor
    · intro ht
      obtain ⟨-, rfl, hread⟩ := eq_raiseFault_of_step_faulted h ht
      rcases fault_condition_of_step_faulted h ht with ⟨-, hop⟩ | ⟨hreason, -, -⟩
      · exact ⟨rfl, hread, hop⟩
      · cases hreason
    · rintro ⟨rfl, hread, hop⟩
      cases (step_of_notMem hrun hread hop).symm.trans h
      rfl
  · intro op pc
    constructor
    · intro ht
      obtain ⟨-, rfl, hread⟩ := eq_raiseFault_of_step_faulted h ht
      rcases fault_condition_of_step_faulted h ht with ⟨hreason, -⟩ | ⟨-, rfl, himm⟩
      · cases hreason
      · exact ⟨rfl, rfl, hread, (operand_eq_none_iff hwf hread).1 himm⟩
    · rintro ⟨rfl, rfl, hread, hlast⟩
      have himm : s.program.read (s.PC + 1) = none := (operand_eq_none_iff hwf hread).2 hlast
      cases (step_of_lda_no_operand hrun hread himm).symm.trans h
      rfl

/-- A step at a defined opcode other than 0x00, with its operand where 0xA9 stands, goes on Running
(40_engine.md R59). -/
theorem run_of_step_defined {s t : State} {op : Byte} (h : step s = .next t)
    (hread : s.program.read s.PC = some op) (hop : op ∈ definedOpcodes) (hbrk : op ≠ opcodeBrk)
    (hoperand : op = opcodeLda → s.program.read (s.PC + 1) ≠ none) : t.run = .running := by
  rcases step_runs_on_or_stops h with ht | ⟨hnone, -⟩ | ⟨hzero, -⟩ | ⟨reason, op', hread', rfl⟩
  · exact ht
  · cases hread.symm.trans hnone
  · cases hread.symm.trans hzero
    exact absurd rfl hbrk
  · cases hread.symm.trans hread'
    rcases fault_condition_of_step_faulted h rfl with ⟨-, hnot⟩ | ⟨-, hlda, himm⟩
    · exact absurd hop hnot
    · exact absurd himm (hoperand hlda)

/-- Settles O27: one row of the transition table for each branch of the chain of checks. -/
theorem firstCheckThatHoldsDecides : Obligations.FirstCheckThatHoldsDecides := by
  unfold Obligations.FirstCheckThatHoldsDecides
  intro s hrun hwf
  obtain ⟨t, h⟩ := exists_step_of_running hrun
  refine ⟨t, h, fun hle => ?_, fun op hread => ?_⟩
  · cases (step_past_end hwf hrun hle).symm.trans h
    rfl
  by_cases hop : op ∈ definedOpcodes
  · rw [if_neg (not_not.2 hop)]
    split_ifs with hlda hbrk
    · obtain ⟨rfl, hle⟩ := hlda
      have himm : s.program.read (s.PC + 1) = none := (Memory.read_eq_none_iff hwf _).2 hle
      cases (step_of_lda_no_operand hrun hread himm).symm.trans h
      rfl
    · subst hbrk
      exact run_of_step_brk h hread
    · exact run_of_step_defined h hread hop hbrk fun heq himm =>
        hlda ⟨heq, (Memory.read_eq_none_iff hwf _).1 himm⟩
  · rw [if_pos hop]
    cases (step_of_notMem hrun hread hop).symm.trans h
    rfl

/-- Settles O29: EndOfProgram is the stop at a missing opcode, which writes `run` alone. -/
theorem endOfProgramExactlyPastTheEnd : Obligations.EndOfProgramExactlyPastTheEnd := by
  unfold Obligations.EndOfProgramExactlyPastTheEnd
  intro s t hwf h
  refine ⟨⟨fun ht => ?_, fun hle => ?_⟩, fun ht => ?_⟩
  · exact (Memory.read_eq_none_iff hwf s.PC).1 (eq_stopEndOfProgram_of_step h ht).2
  · cases (step_past_end hwf (run_of_step_next h) hle).symm.trans h
    rfl
  · obtain ⟨rfl, -⟩ := eq_stopEndOfProgram_of_step h ht
    exact ⟨rfl, rfl, rfl⟩

end Sys2Proof.Machine
end

/-! O7, O11, O12 and O13. The step of each instruction is its meaning (40_engine.md R58, R62); LDA #imm is
one write of A and `status` and an advance by two, BRK is the stop (41_load.md R70, 42_halt.md R72). -/
section
namespace Sys2Proof.Machine

/-- An instruction whose bytes stand at PC is what the fetch reads (40_engine.md R54). -/
theorem fetchBytes_of_holdsAt {i : Instr} {s : State} (h : s.holdsAt s.PC (encode i)) :
    fetchBytes s = encode i := by
  by_cases hop : i.opcode = opcodeLda
  · cases i with
    | ldaImm imm =>
      have hread : s.program.read s.PC = some opcodeLda := h 0 opcodeLda rfl
      have himm : s.program.read (s.PC + 1) = some imm := h 1 imm rfl
      rw [fetchBytes_of_lda hread, himm]
      rfl
    | _ => exact absurd hop (by decide)
  · rw [encode_of_opcode_ne_lda hop] at h ⊢
    exact fetchBytes_of_ne_lda (h 0 i.opcode rfl) hop

/-- Settles O7: the bytes at PC are what is fetched, and a running step is the dispatch on what is
decoded. -/
theorem stepRunsTheInstructionAtPC : Obligations.StepRunsTheInstructionAtPC := by
  unfold Obligations.StepRunsTheInstructionAtPC
  constructor
  · intro i s hrun hbytes
    exact step_of_fetchBytes_eq_encode hrun (fetchBytes_of_holdsAt hbytes)
  · intro i s rest hrun hdec
    rw [step_of_running hrun, hdec]

/-- LDA #imm in a running state, as one next state (41_load.md R70). -/
theorem exec_ldaImm_of_running {imm : Byte} {s : State} (hrun : s.run = .running) :
    exec (.ldaImm imm) s = .next
      { s with A := imm, status := flagFormula s.status imm, PC := s.PC + 2 } := by
  rw [← setZN_eq_flagFormula]
  exact congrArg Host.Outcome.next (State.postIncrement_of_running hrun)

/-- Settles O11, by the post-increment of a running state after the advance over the operand. -/
theorem loadImmediateResult : Obligations.LoadImmediateResult := by
  unfold Obligations.LoadImmediateResult
  exact fun imm s hrun => exec_ldaImm_of_running hrun

/-- Settles O12: the operand decides between the load, whose flags are those of the one formula, and the
fault. -/
theorem loadImmediateStep : Obligations.LoadImmediateStep := by
  unfold Obligations.LoadImmediateStep
  intro s hrun hwf hread
  refine ⟨fun imm himm => ?_, fun hlast => ?_, ?_⟩
  · refine ⟨_, (step_of_lda_operand hrun hread himm).trans (exec_ldaImm_of_running hrun), rfl,
      ?_, ?_, fun b hZ hN => statusBit_flagFormula_of_ne s.status imm hZ hN⟩
    · rw [statusBit_flagFormula, statusBit_setZN]
    · rw [statusBit_flagFormula, statusBit_setZN]
  · exact step_of_lda_no_operand hrun hread ((operand_eq_none_iff hwf hread).2 hlast)
  · exact (Option.eq_none_or_eq_some _).imp_left (operand_eq_none_iff hwf hread).1

/-- BRK stops, and the post-increment leaves the halted state (42_halt.md R72). -/
theorem exec_brk (s : State) : exec .brk s = .next s.stopHalted := rfl

/-- LDA #imm loads the immediate (41_load.md R70). -/
theorem A_of_exec_ldaImm {imm : Byte} {s t : State} (h : exec (.ldaImm imm) s = .next t) :
    t.A = imm := by
  cases h; simp

/-- Settles O13: the meaning is the stop, 0x00 at PC is fetched alone and runs it, and 0x00 after 0xA9 is
the operand that is loaded. -/
theorem haltOpcodeOnlyHalts : Obligations.HaltOpcodeOnlyHalts := by
  unfold Obligations.HaltOpcodeOnlyHalts
  refine ⟨exec_brk, fun s hrun hread => ⟨fetchBytes_of_ne_lda hread (by decide), ?_⟩,
    fun s t hhalt h => ?_, fun s hrun hread himm => ?_⟩
  · exact step_of_read_opcode (i := .brk) (by decide) hrun hread
  · cases hhalt.symm.trans (run_of_step_next h)
  · have hs : step s = exec (.ldaImm 0x00) s := step_of_lda_operand hrun hread himm
    obtain ⟨t, h⟩ := exec_answers_next (.ldaImm 0x00) s
    exact ⟨t, hs.trans h, (run_PC_of_exec_of_ne_brk h nofun hrun).1, A_of_exec_ldaImm h⟩

end Sys2Proof.Machine
end

/-! O10. The rows of the transition table, each with its full next state (40_engine.md section 6). -/
section
namespace Sys2Proof.Machine

/-- The increment as the byte of the successor modulo 256 (44_increment.md R77). -/
theorem increment_eq_ofNat (v : Byte) : increment v = BitVec.ofNat 8 ((v.toNat + 1) % 256) := by
  rw [← toNat_increment, BitVec.ofNat_toNat, BitVec.setWidth_eq]

/-- Settles O10: at L the run ends; below L a byte stands at PC, and it takes the row of its opcode. -/
theorem transitionTableIsComplete : Obligations.TransitionTableIsComplete := by
  unfold Obligations.TransitionTableIsComplete
  intro s hrun hwf _
  refine ⟨fun hend => step_past_end hwf hrun hend.ge, fun hlt => ?_⟩
  obtain ⟨op, hread⟩ := Memory.exists_read hwf hlt
  refine ⟨op, hread, ?_, ?_, ?_, ?_, ?_, ?_⟩
  · rintro rfl
    exact step_of_read_opcode (i := .brk) (by decide) hrun hread
  · rintro rfl
    exact (step_of_read_opcode (i := .tax) (by decide) hrun hread).trans (exec_tax_of_running hrun)
  · rintro rfl
    rw [← increment_eq_ofNat]
    exact (step_of_read_opcode (i := .inx) (by decide) hrun hread).trans (exec_inx_of_running hrun)
  · rintro rfl hoperand
    obtain ⟨imm, himm⟩ := Memory.exists_read hwf hoperand
    exact ⟨imm, himm, (step_of_lda_operand hrun hread himm).trans (exec_ldaImm_of_running hrun)⟩
  · rintro rfl hlast
    exact step_of_lda_no_operand hrun hread ((operand_eq_none_iff hwf hread).2 hlast)
  · intro hbrk hlda htax hinx
    exact step_of_notMem hrun hread (notMem_definedOpcodes hlda hbrk htax hinx)

end Sys2Proof.Machine
end

/-! O15. TAX writes the flags of the old accumulator, which is the new X, while the new accumulator is
0x00; Z tells the two apart (43_transfer.md R75). -/
section
namespace Sys2Proof.Machine

/-- `SetZN` of a value other than 0x00 is not that of 0x00, because Z differs (40_engine.md R55). -/
theorem setZN_ne_setZN_zero {status v : Byte} (hv : v ≠ 0x00) :
    setZN status v ≠ setZN status 0x00 := by
  intro heq
  have hZ : statusBit (setZN status v) .Z = statusBit (setZN status 0x00) .Z := by rw [heq]
  rw [statusBit_setZN, statusBit_setZN] at hZ
  exact hv (beq_iff_eq.1 hZ)

/-- Settles O15: the new X is the old accumulator, the new accumulator is 0x00. -/
theorem transferFlagsComeFromOldAccumulator :
    Obligations.TransferFlagsComeFromOldAccumulator := by
  unfold Obligations.TransferFlagsComeFromOldAccumulator
  intro s t h
  rw [X_of_exec_tax h, A_of_exec_tax h, status_of_exec_tax h]
  exact ⟨rfl, setZN_ne_setZN_zero, fun hA => by rw [hA]⟩

end Sys2Proof.Machine
end

/-! O21. The frame of the meanings, register by register (the register lists of 41_load.md, 42_halt.md,
43_transfer.md and 44_increment.md). -/
section
namespace Sys2Proof.Machine

section Frame
variable {i : Instr} {s t : State} (h : exec i s = .next t)
include h

/-- A is written by LDA #imm and TAX only (10_state.md R20). -/
theorem A_of_exec (hlda : ∀ imm, i ≠ .ldaImm imm) (htax : i ≠ .tax) : t.A = s.A := by
  cases i with
  | ldaImm imm => exact absurd rfl (hlda imm)
  | tax => exact absurd rfl htax
  | brk => cases h; rfl
  | inx => cases h; simp

/-- X is written by TAX and INX only (10_state.md R21). -/
theorem X_of_exec (htax : i ≠ .tax) (hinx : i ≠ .inx) : t.X = s.X := by
  cases i with
  | tax => exact absurd rfl htax
  | inx => exact absurd rfl hinx
  | brk => cases h; rfl
  | ldaImm imm => cases h; simp

/-- The status bits other than Z and N are written by no instruction (10_state.md R24). -/
theorem statusBit_of_exec {b : StatusBit} (hZ : b ≠ .Z) (hN : b ≠ .N) :
    statusBit t.status b = statusBit s.status b := by
  obtain ⟨u, f, hf, hexec⟩ := exec_setStatus i s
  have hnext : Host.Outcome.next t = .next (u.setStatus (f s.status)) :=
    h.symm.trans (hexec s.status)
  cases hnext
  exact hf.statusBit_eq s.status hZ hN

/-- `run` is written by BRK only (10_state.md R26). -/
theorem run_of_exec (hbrk : i ≠ .brk) : t.run = s.run := by
  obtain ⟨u, hu, hrun, -⟩ := exec_eq_next_postIncrement hbrk s
  cases hu.symm.trans h
  rw [State.postIncrement_run, hrun]

end Frame

/-- BRK leaves PC (42_halt.md R72). -/
theorem PC_of_exec_brk {s t : State} (h : exec .brk s = .next t) : t.PC = s.PC := by
  cases h; rfl

/-- Settles O21, by the frame of each register and of the program. -/
theorem meaningsChangeOnlyTheirDestinations :
    Obligations.MeaningsChangeOnlyTheirDestinations := by
  unfold Obligations.MeaningsChangeOnlyTheirDestinations
  intro i s t h
  have hprog : t.program = s.program := program_of_exec h
  refine ⟨A_of_exec h, X_of_exec h, fun b => statusBit_of_exec h, ?_, run_of_exec h,
    fun a => by rw [hprog], congrArg List.length hprog⟩
  rintro rfl
  exact ⟨status_of_exec_brk h, PC_of_exec_brk h⟩

end Sys2Proof.Machine
end

/-! O2 and O23. A run depends on its start state through run entry alone (70_reset_and_hazards.md R101),
and a program in canonical form is determined by what it reads (20_memory.md R30). -/
section
namespace Sys2Proof.Machine

/-- Run entry reads A, X and `status` of the start state alone (70_reset_and_hazards.md R101). -/
theorem State.enter_congr {start other : State} (hA : start.A = other.A) (hX : start.X = other.X)
    (hstatus : start.status = other.status) (prog : List Byte) :
    start.enter prog = other.enter prog := by
  rw [State.enter, State.enter, hA, hX, hstatus]

/-- Settles O2: the entered state by its fields, the run because the entry point uses the start state
for run entry alone. -/
theorem runEntryTakesOnlyAXAndStatus : Obligations.RunEntryTakesOnlyAXAndStatus := by
  unfold Obligations.RunEntryTakesOnlyAXAndStatus
  intro start other prog
  refine ⟨rfl, rfl, rfl, rfl, rfl, Memory.read_ofBytes prog, fun hA hX hstatus => ?_⟩
  have henter : start.enter prog = other.enter prog := State.enter_congr hA hX hstatus prog
  exact ⟨henter, fun p => by rw [runProgram, runProgram, henter]⟩

/-- Settles O23: a program in canonical form is the layout of its bytes, and its reads are those bytes. -/
theorem equalReadsMeanEqualPrograms : Obligations.EqualReadsMeanEqualPrograms := by
  unfold Obligations.EqualReadsMeanEqualPrograms
  intro m n hm hn hread
  have hbytes : m.map Prod.snd = n.map Prod.snd :=
    List.ext_getElem? fun a => by
      rw [← Memory.read_of_wf hm, hread a, Memory.read_of_wf hn]
  rw [← Memory.ofBytes_map_snd hm, hbytes, Memory.ofBytes_map_snd hn]

end Sys2Proof.Machine
end
